-- ==== Sys2Proof/Word.lean ====
section
/-! DEFINITION. The machine's two bit-vector types (spec/00_scope.md R2, R7, R8). -/

namespace Sys2Proof

/-- A byte: 8 bits (R8). -/
abbrev Byte := BitVec 8

/-- A Word: a 256-bit unsigned integer, arithmetic modulo 2^256 (R2, R7). -/
abbrev Word := BitVec 256

end Sys2Proof
end

