-- ==== Sys2Proof/Config.lean ====
section
/-! DEFINITION. What an implementation of the block fixes (spec/00_scope.md R5) and the free values
of the model. The OPEN parameters of R5 (MEM_CAPACITY, CODE_MAX, STEP_BUDGET) are arguments of a run,
so they are fields of State; here stand only the values that State.reset gives them. -/

namespace Sys2Proof.Config

open Sys2Proof

/-- STACK_DEPTH, the stack's `max_depth` (R5, R6). -/
def stackDepth : Nat := 1024

/-- Bytes in a memory word (R5, R14). -/
def memWordBytes : Nat := 32

/-! ### Values State.reset gives the OPEN parameters: DESIGN CHOICE, log entry 6 (unsafe) -/

/-- MEM_CAPACITY of State.reset: a positive multiple of 32 (R5). DESIGN CHOICE (log entry 6). -/
def resetMemCapacity : Nat := 4294967296

/-- CODE_MAX of State.reset. DESIGN CHOICE (log entry 6). -/
def resetCodeMax : Nat := 4294967296

/-- STEP_BUDGET of State.reset. DESIGN CHOICE (log entry 6). -/
def resetStepBudget : Nat := 18446744073709551616

/-! ### Free values: no body, so nothing can be proved of them (safe)

Each is applied to the counter `freeDraws` of State, which advances at every draw. -/

/-- Stack contents after a fault: "any value" (R274, D10). Log entry 2. -/
opaque freeStack : Nat → List Word

/-- Written memory cells after a fault: "any value" (R274, D10). Log entry 2. -/
opaque freeCells : Nat → List (Nat × Byte)

/-- Memory length after a fault, in memory words: "any value" (R274, D10). Log entry 2. -/
opaque freeMemWords : Nat → Nat

/-- Return buffer after a fault: "any value" (R274, D10). Log entry 2. -/
opaque freeRet : Nat → List Byte

/-- Step counter after a fault: "any value" (R254, R274, D10). Log entry 2. -/
opaque freeSteps : Nat → Nat

/-- The Word that `zext_256` gives for a number of 2^256 or more, where R8 defines none. Log entry 9. -/
opaque freeWord : Nat → Word

end Sys2Proof.Config
end

