-- ==== Sys2Proof/Syntax.lean ====
section
/-! DEFINITION. The instructions: one constructor per row of spec/opcode_table.json (spec/30_encoding.md R84).
Only PUSHn carries an operand, its immediate (R80); every other operand comes from the stack (spec/10_state.md R20). -/

namespace Sys2Proof

/-- The 75 registered instructions (R84). -/
inductive Instr where
  /-- STOP, R237. -/
  | stop
  /-- ADD, R105. -/
  | add
  /-- MUL, R106. -/
  | mul
  /-- SUB, R107. -/
  | sub
  /-- MSTORE8, R220. -/
  | mstore8
  /-- JUMP, R233. -/
  | jump
  /-- JUMPI, R234. -/
  | jumpi
  /-- PC, R232. -/
  | pc
  /-- MSIZE, R221. -/
  | msize
  /-- JUMPDEST, R235. -/
  | jumpdest
  /-- PUSH1, R126. -/
  | push1 (imm : Word)
  /-- PUSH2, R127. -/
  | push2 (imm : Word)
  /-- PUSH3, R128. -/
  | push3 (imm : Word)
  /-- PUSH4, R129. -/
  | push4 (imm : Word)
  /-- PUSH5, R130. -/
  | push5 (imm : Word)
  /-- PUSH6, R131. -/
  | push6 (imm : Word)
  /-- PUSH7, R132. -/
  | push7 (imm : Word)
  /-- PUSH8, R133. -/
  | push8 (imm : Word)
  /-- PUSH9, R134. -/
  | push9 (imm : Word)
  /-- PUSH10, R135. -/
  | push10 (imm : Word)
  /-- PUSH11, R136. -/
  | push11 (imm : Word)
  /-- PUSH12, R137. -/
  | push12 (imm : Word)
  /-- PUSH13, R138. -/
  | push13 (imm : Word)
  /-- PUSH14, R139. -/
  | push14 (imm : Word)
  /-- PUSH15, R140. -/
  | push15 (imm : Word)
  /-- PUSH16, R141. -/
  | push16 (imm : Word)
  /-- PUSH17, R142. -/
  | push17 (imm : Word)
  /-- PUSH18, R143. -/
  | push18 (imm : Word)
  /-- PUSH19, R144. -/
  | push19 (imm : Word)
  /-- PUSH20, R145. -/
  | push20 (imm : Word)
  /-- PUSH21, R146. -/
  | push21 (imm : Word)
  /-- PUSH22, R147. -/
  | push22 (imm : Word)
  /-- PUSH23, R148. -/
  | push23 (imm : Word)
  /-- PUSH24, R149. -/
  | push24 (imm : Word)
  /-- PUSH25, R150. -/
  | push25 (imm : Word)
  /-- PUSH26, R151. -/
  | push26 (imm : Word)
  /-- PUSH27, R152. -/
  | push27 (imm : Word)
  /-- PUSH28, R153. -/
  | push28 (imm : Word)
  /-- PUSH29, R154. -/
  | push29 (imm : Word)
  /-- PUSH30, R155. -/
  | push30 (imm : Word)
  /-- PUSH31, R156. -/
  | push31 (imm : Word)
  /-- PUSH32, R157. -/
  | push32 (imm : Word)
  /-- DUP1, R159. -/
  | dup1
  /-- DUP2, R160. -/
  | dup2
  /-- DUP3, R161. -/
  | dup3
  /-- DUP4, R162. -/
  | dup4
  /-- DUP5, R163. -/
  | dup5
  /-- DUP6, R164. -/
  | dup6
  /-- DUP7, R165. -/
  | dup7
  /-- DUP8, R166. -/
  | dup8
  /-- DUP9, R167. -/
  | dup9
  /-- DUP10, R168. -/
  | dup10
  /-- DUP11, R169. -/
  | dup11
  /-- DUP12, R170. -/
  | dup12
  /-- DUP13, R171. -/
  | dup13
  /-- DUP14, R172. -/
  | dup14
  /-- DUP15, R173. -/
  | dup15
  /-- DUP16, R174. -/
  | dup16
  /-- SWAP1, R176. -/
  | swap1
  /-- SWAP2, R177. -/
  | swap2
  /-- SWAP3, R178. -/
  | swap3
  /-- SWAP4, R179. -/
  | swap4
  /-- SWAP5, R180. -/
  | swap5
  /-- SWAP6, R181. -/
  | swap6
  /-- SWAP7, R182. -/
  | swap7
  /-- SWAP8, R183. -/
  | swap8
  /-- SWAP9, R184. -/
  | swap9
  /-- SWAP10, R185. -/
  | swap10
  /-- SWAP11, R186. -/
  | swap11
  /-- SWAP12, R187. -/
  | swap12
  /-- SWAP13, R188. -/
  | swap13
  /-- SWAP14, R189. -/
  | swap14
  /-- SWAP15, R190. -/
  | swap15
  /-- SWAP16, R191. -/
  | swap16
  /-- RETURN, R236. -/
  | ret
  deriving DecidableEq, Repr

namespace Instr

/-- The immediate of a PUSHn with its width n in bytes (R80, R81); no other instruction has one. -/
def immediate (i : Instr) : Option (Nat × Word) :=
  match i with
  | .push1 imm => some (1, imm)
  | .push2 imm => some (2, imm)
  | .push3 imm => some (3, imm)
  | .push4 imm => some (4, imm)
  | .push5 imm => some (5, imm)
  | .push6 imm => some (6, imm)
  | .push7 imm => some (7, imm)
  | .push8 imm => some (8, imm)
  | .push9 imm => some (9, imm)
  | .push10 imm => some (10, imm)
  | .push11 imm => some (11, imm)
  | .push12 imm => some (12, imm)
  | .push13 imm => some (13, imm)
  | .push14 imm => some (14, imm)
  | .push15 imm => some (15, imm)
  | .push16 imm => some (16, imm)
  | .push17 imm => some (17, imm)
  | .push18 imm => some (18, imm)
  | .push19 imm => some (19, imm)
  | .push20 imm => some (20, imm)
  | .push21 imm => some (21, imm)
  | .push22 imm => some (22, imm)
  | .push23 imm => some (23, imm)
  | .push24 imm => some (24, imm)
  | .push25 imm => some (25, imm)
  | .push26 imm => some (26, imm)
  | .push27 imm => some (27, imm)
  | .push28 imm => some (28, imm)
  | .push29 imm => some (29, imm)
  | .push30 imm => some (30, imm)
  | .push31 imm => some (31, imm)
  | .push32 imm => some (32, imm)
  | .stop | .add | .mul | .sub | .mstore8 | .jump | .jumpi | .pc
  | .msize | .jumpdest | .ret => none
  | .dup1 | .dup2 | .dup3 | .dup4 | .dup5 | .dup6 | .dup7 | .dup8
  | .dup9 | .dup10 | .dup11 | .dup12 | .dup13 | .dup14 | .dup15 | .dup16 => none
  | .swap1 | .swap2 | .swap3 | .swap4 | .swap5 | .swap6 | .swap7 | .swap8
  | .swap9 | .swap10 | .swap11 | .swap12 | .swap13 | .swap14 | .swap15 | .swap16 => none

/-- The n of DUPn (R158). -/
def dupNumber (i : Instr) : Option Nat :=
  match i with
  | .dup1 => some 1
  | .dup2 => some 2
  | .dup3 => some 3
  | .dup4 => some 4
  | .dup5 => some 5
  | .dup6 => some 6
  | .dup7 => some 7
  | .dup8 => some 8
  | .dup9 => some 9
  | .dup10 => some 10
  | .dup11 => some 11
  | .dup12 => some 12
  | .dup13 => some 13
  | .dup14 => some 14
  | .dup15 => some 15
  | .dup16 => some 16
  | .stop | .add | .mul | .sub | .mstore8 | .jump | .jumpi | .pc
  | .msize | .jumpdest | .ret => none
  | .push1 _ | .push2 _ | .push3 _ | .push4 _ | .push5 _ | .push6 _ | .push7 _ | .push8 _
  | .push9 _ | .push10 _ | .push11 _ | .push12 _ | .push13 _ | .push14 _ | .push15 _ | .push16 _
  | .push17 _ | .push18 _ | .push19 _ | .push20 _ | .push21 _ | .push22 _ | .push23 _ | .push24 _
  | .push25 _ | .push26 _ | .push27 _ | .push28 _ | .push29 _ | .push30 _ | .push31 _ | .push32 _ => none
  | .swap1 | .swap2 | .swap3 | .swap4 | .swap5 | .swap6 | .swap7 | .swap8
  | .swap9 | .swap10 | .swap11 | .swap12 | .swap13 | .swap14 | .swap15 | .swap16 => none

/-- The n of SWAPn (R175). -/
def swapNumber (i : Instr) : Option Nat :=
  match i with
  | .swap1 => some 1
  | .swap2 => some 2
  | .swap3 => some 3
  | .swap4 => some 4
  | .swap5 => some 5
  | .swap6 => some 6
  | .swap7 => some 7
  | .swap8 => some 8
  | .swap9 => some 9
  | .swap10 => some 10
  | .swap11 => some 11
  | .swap12 => some 12
  | .swap13 => some 13
  | .swap14 => some 14
  | .swap15 => some 15
  | .swap16 => some 16
  | .stop | .add | .mul | .sub | .mstore8 | .jump | .jumpi | .pc
  | .msize | .jumpdest | .ret => none
  | .push1 _ | .push2 _ | .push3 _ | .push4 _ | .push5 _ | .push6 _ | .push7 _ | .push8 _
  | .push9 _ | .push10 _ | .push11 _ | .push12 _ | .push13 _ | .push14 _ | .push15 _ | .push16 _
  | .push17 _ | .push18 _ | .push19 _ | .push20 _ | .push21 _ | .push22 _ | .push23 _ | .push24 _
  | .push25 _ | .push26 _ | .push27 _ | .push28 _ | .push29 _ | .push30 _ | .push31 _ | .push32 _ => none
  | .dup1 | .dup2 | .dup3 | .dup4 | .dup5 | .dup6 | .dup7 | .dup8
  | .dup9 | .dup10 | .dup11 | .dup12 | .dup13 | .dup14 | .dup15 | .dup16 => none

/-- The mnemonic, as R84 and spec/opcode_table.json spell it. -/
def mnemonic (i : Instr) : String :=
  match i with
  | .stop => "STOP"
  | .add => "ADD"
  | .mul => "MUL"
  | .sub => "SUB"
  | .mstore8 => "MSTORE8"
  | .jump => "JUMP"
  | .jumpi => "JUMPI"
  | .pc => "PC"
  | .msize => "MSIZE"
  | .jumpdest => "JUMPDEST"
  | .push1 _ => "PUSH1"
  | .push2 _ => "PUSH2"
  | .push3 _ => "PUSH3"
  | .push4 _ => "PUSH4"
  | .push5 _ => "PUSH5"
  | .push6 _ => "PUSH6"
  | .push7 _ => "PUSH7"
  | .push8 _ => "PUSH8"
  | .push9 _ => "PUSH9"
  | .push10 _ => "PUSH10"
  | .push11 _ => "PUSH11"
  | .push12 _ => "PUSH12"
  | .push13 _ => "PUSH13"
  | .push14 _ => "PUSH14"
  | .push15 _ => "PUSH15"
  | .push16 _ => "PUSH16"
  | .push17 _ => "PUSH17"
  | .push18 _ => "PUSH18"
  | .push19 _ => "PUSH19"
  | .push20 _ => "PUSH20"
  | .push21 _ => "PUSH21"
  | .push22 _ => "PUSH22"
  | .push23 _ => "PUSH23"
  | .push24 _ => "PUSH24"
  | .push25 _ => "PUSH25"
  | .push26 _ => "PUSH26"
  | .push27 _ => "PUSH27"
  | .push28 _ => "PUSH28"
  | .push29 _ => "PUSH29"
  | .push30 _ => "PUSH30"
  | .push31 _ => "PUSH31"
  | .push32 _ => "PUSH32"
  | .dup1 => "DUP1"
  | .dup2 => "DUP2"
  | .dup3 => "DUP3"
  | .dup4 => "DUP4"
  | .dup5 => "DUP5"
  | .dup6 => "DUP6"
  | .dup7 => "DUP7"
  | .dup8 => "DUP8"
  | .dup9 => "DUP9"
  | .dup10 => "DUP10"
  | .dup11 => "DUP11"
  | .dup12 => "DUP12"
  | .dup13 => "DUP13"
  | .dup14 => "DUP14"
  | .dup15 => "DUP15"
  | .dup16 => "DUP16"
  | .swap1 => "SWAP1"
  | .swap2 => "SWAP2"
  | .swap3 => "SWAP3"
  | .swap4 => "SWAP4"
  | .swap5 => "SWAP5"
  | .swap6 => "SWAP6"
  | .swap7 => "SWAP7"
  | .swap8 => "SWAP8"
  | .swap9 => "SWAP9"
  | .swap10 => "SWAP10"
  | .swap11 => "SWAP11"
  | .swap12 => "SWAP12"
  | .swap13 => "SWAP13"
  | .swap14 => "SWAP14"
  | .swap15 => "SWAP15"
  | .swap16 => "SWAP16"
  | .ret => "RETURN"

/-- Length in bytes: 1 for format OP, 1 + n for format OP_IMMn (R80, R83). -/
def length (i : Instr) : Nat :=
  match i.immediate with
  | some (n, _) => 1 + n
  | none => 1

end Instr

end Sys2Proof
end

