-- ==== Sys2Proof/WellFormed.lean ====
section
/-! DEFINITION. When an instruction term stands for an encodable instruction: the immediate of PUSHn fits in
its n bytes (spec/30_encoding.md R81, and R88: "an immediate ≥ 256^n is refused"). -/

namespace Sys2Proof

/-- The immediate of a PUSHn is below 256^n (R81, R88). -/
def immFits (n : Nat) (imm : Word) : Bool := decide (imm.toNat < 256 ^ n)

/-- Well-formed: an instruction with an immediate has one that fits its width. -/
def Instr.wellFormed (i : Instr) : Bool :=
  match i.immediate with
  | some (n, imm) => immFits n imm
  | none => true

end Sys2Proof
end

