-- ==== Sys2Proof/Decode.lean ====
section
/-! DEFINITION. From code bytes to instructions and back (spec/30_encoding.md): byte order, the reads of a code
buffer, the instruction registry, the decoder, the encoder, and the scan that finds the jump destinations
(spec/43_control.md R230), which follows the same length rule. -/

namespace Sys2Proof

/-! ### Byte order and buffer reads -/

/-- `be(b_0, ..., b_{n-1})`: the big-endian integer of a byte sequence; `be()` is 0 (R8). -/
def be (bs : List Byte) : Nat := bs.foldl (fun acc b => acc * 256 + b.toNat) 0

/-- The n low bytes of a Word, most significant first: the form in which a Word or an immediate is
serialized (R8, R81, R64). -/
def beBytes (n : Nat) (w : Word) : List Byte :=
  (List.range n).map fun j => BitVec.ofNat 8 (w.toNat / 256 ^ (n - 1 - j))

/-- `readByte(offset)` of a read-only buffer: the byte, or 0 at or past its end (R62). -/
def readByte (buf : List Byte) (i : Nat) : Byte := buf.getD i 0

/-- The n bytes at `[i, i + n)`, each by `readByte`. -/
def readBytes (buf : List Byte) (i n : Nat) : List Byte := (List.range n).map fun j => readByte buf (i + j)

/-- The n bytes at `[i, i + n)` as a big-endian integer, zero-padded past the end (R63, R82, R250). -/
def readBE (buf : List Byte) (i n : Nat) : Nat := be (readBytes buf i n)

/-- `readWord(offset)`: 32 bytes as a big-endian Word (R63). -/
def readWord (buf : List Byte) (i : Nat) : Word := BitVec.ofNat 256 (readBE buf i 32)

/-! ### The instruction registry (R39, R84) -/

/-- One row of the opcode table: mnemonic, opcode byte, width of the immediate in bytes, and the
instruction the row stands for, given the immediate. -/
structure OpRow where
  mnemonic : String
  opcode : Byte
  width : Nat
  make : Word → Instr

/-- Arithmetic, memory, control and halting rows of R84. -/
def registryBase : List OpRow :=
  [⟨"STOP", 0x00, 0, fun _ => .stop⟩,
   ⟨"ADD", 0x01, 0, fun _ => .add⟩,
   ⟨"MUL", 0x02, 0, fun _ => .mul⟩,
   ⟨"SUB", 0x03, 0, fun _ => .sub⟩,
   ⟨"MSTORE8", 0x53, 0, fun _ => .mstore8⟩,
   ⟨"JUMP", 0x56, 0, fun _ => .jump⟩,
   ⟨"JUMPI", 0x57, 0, fun _ => .jumpi⟩,
   ⟨"PC", 0x58, 0, fun _ => .pc⟩,
   ⟨"MSIZE", 0x59, 0, fun _ => .msize⟩,
   ⟨"JUMPDEST", 0x5B, 0, fun _ => .jumpdest⟩,
   ⟨"RETURN", 0xF3, 0, fun _ => .ret⟩]

/-- PUSH1 to PUSH16 (R84, R125). -/
def registryPushLow : List OpRow :=
  [⟨"PUSH1", 0x60, 1, fun imm => .push1 imm⟩,
   ⟨"PUSH2", 0x61, 2, fun imm => .push2 imm⟩,
   ⟨"PUSH3", 0x62, 3, fun imm => .push3 imm⟩,
   ⟨"PUSH4", 0x63, 4, fun imm => .push4 imm⟩,
   ⟨"PUSH5", 0x64, 5, fun imm => .push5 imm⟩,
   ⟨"PUSH6", 0x65, 6, fun imm => .push6 imm⟩,
   ⟨"PUSH7", 0x66, 7, fun imm => .push7 imm⟩,
   ⟨"PUSH8", 0x67, 8, fun imm => .push8 imm⟩,
   ⟨"PUSH9", 0x68, 9, fun imm => .push9 imm⟩,
   ⟨"PUSH10", 0x69, 10, fun imm => .push10 imm⟩,
   ⟨"PUSH11", 0x6A, 11, fun imm => .push11 imm⟩,
   ⟨"PUSH12", 0x6B, 12, fun imm => .push12 imm⟩,
   ⟨"PUSH13", 0x6C, 13, fun imm => .push13 imm⟩,
   ⟨"PUSH14", 0x6D, 14, fun imm => .push14 imm⟩,
   ⟨"PUSH15", 0x6E, 15, fun imm => .push15 imm⟩,
   ⟨"PUSH16", 0x6F, 16, fun imm => .push16 imm⟩]

/-- PUSH17 to PUSH32 (R84, R125). -/
def registryPushHigh : List OpRow :=
  [⟨"PUSH17", 0x70, 17, fun imm => .push17 imm⟩,
   ⟨"PUSH18", 0x71, 18, fun imm => .push18 imm⟩,
   ⟨"PUSH19", 0x72, 19, fun imm => .push19 imm⟩,
   ⟨"PUSH20", 0x73, 20, fun imm => .push20 imm⟩,
   ⟨"PUSH21", 0x74, 21, fun imm => .push21 imm⟩,
   ⟨"PUSH22", 0x75, 22, fun imm => .push22 imm⟩,
   ⟨"PUSH23", 0x76, 23, fun imm => .push23 imm⟩,
   ⟨"PUSH24", 0x77, 24, fun imm => .push24 imm⟩,
   ⟨"PUSH25", 0x78, 25, fun imm => .push25 imm⟩,
   ⟨"PUSH26", 0x79, 26, fun imm => .push26 imm⟩,
   ⟨"PUSH27", 0x7A, 27, fun imm => .push27 imm⟩,
   ⟨"PUSH28", 0x7B, 28, fun imm => .push28 imm⟩,
   ⟨"PUSH29", 0x7C, 29, fun imm => .push29 imm⟩,
   ⟨"PUSH30", 0x7D, 30, fun imm => .push30 imm⟩,
   ⟨"PUSH31", 0x7E, 31, fun imm => .push31 imm⟩,
   ⟨"PUSH32", 0x7F, 32, fun imm => .push32 imm⟩]

/-- DUP1 to DUP16 (R84, R158). -/
def registryDup : List OpRow :=
  [⟨"DUP1", 0x80, 0, fun _ => .dup1⟩,
   ⟨"DUP2", 0x81, 0, fun _ => .dup2⟩,
   ⟨"DUP3", 0x82, 0, fun _ => .dup3⟩,
   ⟨"DUP4", 0x83, 0, fun _ => .dup4⟩,
   ⟨"DUP5", 0x84, 0, fun _ => .dup5⟩,
   ⟨"DUP6", 0x85, 0, fun _ => .dup6⟩,
   ⟨"DUP7", 0x86, 0, fun _ => .dup7⟩,
   ⟨"DUP8", 0x87, 0, fun _ => .dup8⟩,
   ⟨"DUP9", 0x88, 0, fun _ => .dup9⟩,
   ⟨"DUP10", 0x89, 0, fun _ => .dup10⟩,
   ⟨"DUP11", 0x8A, 0, fun _ => .dup11⟩,
   ⟨"DUP12", 0x8B, 0, fun _ => .dup12⟩,
   ⟨"DUP13", 0x8C, 0, fun _ => .dup13⟩,
   ⟨"DUP14", 0x8D, 0, fun _ => .dup14⟩,
   ⟨"DUP15", 0x8E, 0, fun _ => .dup15⟩,
   ⟨"DUP16", 0x8F, 0, fun _ => .dup16⟩]

/-- SWAP1 to SWAP16 (R84, R175). -/
def registrySwap : List OpRow :=
  [⟨"SWAP1", 0x90, 0, fun _ => .swap1⟩,
   ⟨"SWAP2", 0x91, 0, fun _ => .swap2⟩,
   ⟨"SWAP3", 0x92, 0, fun _ => .swap3⟩,
   ⟨"SWAP4", 0x93, 0, fun _ => .swap4⟩,
   ⟨"SWAP5", 0x94, 0, fun _ => .swap5⟩,
   ⟨"SWAP6", 0x95, 0, fun _ => .swap6⟩,
   ⟨"SWAP7", 0x96, 0, fun _ => .swap7⟩,
   ⟨"SWAP8", 0x97, 0, fun _ => .swap8⟩,
   ⟨"SWAP9", 0x98, 0, fun _ => .swap9⟩,
   ⟨"SWAP10", 0x99, 0, fun _ => .swap10⟩,
   ⟨"SWAP11", 0x9A, 0, fun _ => .swap11⟩,
   ⟨"SWAP12", 0x9B, 0, fun _ => .swap12⟩,
   ⟨"SWAP13", 0x9C, 0, fun _ => .swap13⟩,
   ⟨"SWAP14", 0x9D, 0, fun _ => .swap14⟩,
   ⟨"SWAP15", 0x9E, 0, fun _ => .swap15⟩,
   ⟨"SWAP16", 0x9F, 0, fun _ => .swap16⟩]

/-- The instruction registry: exactly the 75 rows of R84. -/
def registry : List OpRow :=
  registryBase ++ registryPushLow ++ registryPushHigh ++ registryDup ++ registrySwap

/-- The registry's row for an opcode byte, if it is registered (R85). -/
def lookupOpcode (op : Byte) : Option OpRow := registry.find? fun r => r.opcode == op

/-! ### The decoder -/

/-- What decoding yields at a place in the code (R87). -/
inductive Decoded where
  /-- A registered instruction with its immediate. -/
  | instr (i : Instr)
  /-- At or past the end of code: the synthetic STOP (R252). -/
  | syntheticStop
  /-- An unregistered opcode byte, rejected by name (R85). -/
  | invalidOpcode (op : Byte)
  deriving DecidableEq, Repr

/-- Decode the instruction whose opcode byte stands at offset pc of the code (R82, R85, R87, R252). -/
def decodeAt (code : List Byte) (pc : Nat) : Decoded :=
  if pc < code.length then
    match lookupOpcode (readByte code pc) with
    | some r => .instr (r.make (BitVec.ofNat 256 (readBE code (pc + 1) r.width)))
    | none => .invalidOpcode (readByte code pc)
  else .syntheticStop

/-- Decode the first instruction of a byte sequence. -/
def decode (bytes : List Byte) : Decoded := decodeAt bytes 0

/-! ### The encoder, written from the encoding column of R84 -/

/-- The opcode byte of an instruction (R84). -/
def Instr.opcode (i : Instr) : Byte :=
  match i with
  | .stop => 0x00
  | .add => 0x01
  | .mul => 0x02
  | .sub => 0x03
  | .mstore8 => 0x53
  | .jump => 0x56
  | .jumpi => 0x57
  | .pc => 0x58
  | .msize => 0x59
  | .jumpdest => 0x5B
  | .push1 _ => 0x60
  | .push2 _ => 0x61
  | .push3 _ => 0x62
  | .push4 _ => 0x63
  | .push5 _ => 0x64
  | .push6 _ => 0x65
  | .push7 _ => 0x66
  | .push8 _ => 0x67
  | .push9 _ => 0x68
  | .push10 _ => 0x69
  | .push11 _ => 0x6A
  | .push12 _ => 0x6B
  | .push13 _ => 0x6C
  | .push14 _ => 0x6D
  | .push15 _ => 0x6E
  | .push16 _ => 0x6F
  | .push17 _ => 0x70
  | .push18 _ => 0x71
  | .push19 _ => 0x72
  | .push20 _ => 0x73
  | .push21 _ => 0x74
  | .push22 _ => 0x75
  | .push23 _ => 0x76
  | .push24 _ => 0x77
  | .push25 _ => 0x78
  | .push26 _ => 0x79
  | .push27 _ => 0x7A
  | .push28 _ => 0x7B
  | .push29 _ => 0x7C
  | .push30 _ => 0x7D
  | .push31 _ => 0x7E
  | .push32 _ => 0x7F
  | .dup1 => 0x80
  | .dup2 => 0x81
  | .dup3 => 0x82
  | .dup4 => 0x83
  | .dup5 => 0x84
  | .dup6 => 0x85
  | .dup7 => 0x86
  | .dup8 => 0x87
  | .dup9 => 0x88
  | .dup10 => 0x89
  | .dup11 => 0x8A
  | .dup12 => 0x8B
  | .dup13 => 0x8C
  | .dup14 => 0x8D
  | .dup15 => 0x8E
  | .dup16 => 0x8F
  | .swap1 => 0x90
  | .swap2 => 0x91
  | .swap3 => 0x92
  | .swap4 => 0x93
  | .swap5 => 0x94
  | .swap6 => 0x95
  | .swap7 => 0x96
  | .swap8 => 0x97
  | .swap9 => 0x98
  | .swap10 => 0x99
  | .swap11 => 0x9A
  | .swap12 => 0x9B
  | .swap13 => 0x9C
  | .swap14 => 0x9D
  | .swap15 => 0x9E
  | .swap16 => 0x9F
  | .ret => 0xF3

/-- The bytes of an instruction: the opcode byte, then for PUSHn its n immediate bytes, most significant
first (R80, R81). -/
def Instr.encode (i : Instr) : List Byte :=
  match i.immediate with
  | some (n, imm) => i.opcode :: beBytes n imm
  | none => [i.opcode]

/-! ### The opcode table's numbering of an instruction's bits -/

/-- The longest instruction is PUSH32, 33 bytes (R80). -/
def maxInstrBytes : Nat := 33

/-- The bytes of an instruction whose bits the table numbers w: the first byte is bits 7..0, the second
bits 15..8, and so on; every bit at or above nbits is 0. -/
def tableBytes (nbits w : Nat) : List Byte :=
  (List.range maxInstrBytes).map fun j => BitVec.ofNat 8 (w % 2 ^ nbits / 256 ^ j)

/-- The instruction the decoder reads from a word of the opcode table. -/
def decodeTableWord (nbits w : Nat) : Option Instr :=
  match decode (tableBytes nbits w) with
  | .instr i => some i
  | .syntheticStop => none
  | .invalidOpcode _ => none

/-- A code buffer with the bytes bs placed at offset pc, zero-filled up to pc where it is shorter. -/
def placeCode (code : List Byte) (pc : Nat) (bs : List Byte) : List Byte :=
  readBytes code 0 pc ++ bs ++ code.drop (pc + bs.length)

/-! ### Jump destinations (spec/43_control.md R230) -/

/-- How many immediate bytes follow an opcode byte: n for PUSHn, 0 for every other byte (R83). -/
def immWidth (op : Byte) : Nat :=
  if 0x60 ≤ op.toNat ∧ op.toNat ≤ 0x7F then op.toNat - 0x5F else 0

/-- The scan of R230 from offset i, with `skip` immediate bytes of a PUSH still to pass over. -/
def scanJumpDests (i skip : Nat) (code : List Byte) : List Nat :=
  match code, skip with
  | [], _ => []
  | _ :: rest, k + 1 => scanJumpDests (i + 1) k rest
  | b :: rest, 0 =>
    if b = 0x5B then i :: scanJumpDests (i + 1) (immWidth b) rest
    else scanJumpDests (i + 1) (immWidth b) rest

/-- JDEST of a code buffer: the offsets of the 0x5B bytes that are opcodes, rising (R230, R31). -/
def jumpDests (code : List Byte) : List Nat := scanJumpDests 0 0 code

end Sys2Proof
end

