-- ==== Sys2Proof/Machine/State.lean ====
section
/-! DEFINITION. The machine's state as plain data (spec/10_state.md), the reasons a step can stop, and the
state after reset (spec/10_state.md R46, spec/70_reset_and_hazards.md R290). -/

namespace Sys2Proof.Machine

/-- The fault kinds of the block (spec/60_exceptions.md R270). A fault of the block is not a stop of the
model: its entry is described by R272 and is a next state. -/
inductive FaultKind where
  | stackOverflow
  | stackUnderflow
  | invalidStackIndex
  | invalidMemoryValue
  | invalidOpcode
  | invalidJumpDestination
  | stepBudgetExceeded
  | memoryLimit
  deriving DecidableEq, Repr

/-- The run status (R32): one running state and two terminal ones. -/
inductive RunStatus where
  | running
  | haltedNormal
  | haltedFault
  deriving DecidableEq, Repr

/-- Linear memory (R24, R25): `len` is MLEN in bytes, `cells` the bytes that are not 0, by rising address.
An address not listed reads 0, as R25 and R60 say of every byte never written. -/
structure Memory where
  cells : List Host.Cell
  len : Nat
  deriving DecidableEq, Repr

/-- The canonical form of the list: addresses strictly rising, no listed byte is 0, every listed address below MLEN. It
is the model's own: every memory, whatever its bytes and length, has exactly one such list (log entry 10). -/
abbrev Memory.canonical (m : Memory) : Prop :=
  (m.cells.map Prod.fst).Pairwise (· < ·) ∧ ∀ c ∈ m.cells, c.2 ≠ 0 ∧ c.1 < m.len

/-- What memory keeps during a run: the canonical form, and MLEN a multiple of 32 (R24). -/
abbrev Memory.wf (m : Memory) : Prop := m.canonical ∧ m.len % 32 = 0

/-- The state of the block: every element of R46, the OPEN parameters of R5 that a run is built with, and
the model's own counter of free values. -/
structure State where
  /-- S, the live stack cells, the TOP FIRST: `top(i)` is element i; L is the length (R9, R21, R22). -/
  stack : List Word
  /-- mem and MLEN (R24). -/
  mem : Memory
  /-- The code buffer (R26). -/
  code : List Byte
  /-- The calldata buffer (R27). -/
  calldata : List Byte
  /-- JDEST, a rising list of offsets (R31). -/
  jdest : List Nat
  /-- The program counter (R28). -/
  pc : Nat
  /-- The run status (R32). -/
  status : RunStatus
  /-- The return buffer (R34). -/
  ret : List Byte
  /-- The step counter (R35). -/
  steps : Nat
  /-- fault_kind of the fault record (R36). -/
  faultKind : FaultKind
  /-- fault_pc of the fault record (R36). -/
  faultPc : Nat
  /-- MEM_CAPACITY (R5, D3). -/
  memCapacity : Nat
  /-- CODE_MAX (R5, D15). -/
  codeMax : Nat
  /-- STEP_BUDGET (R5, D6, R257). -/
  stepBudget : Nat
  /-- The model's own: how many free values have been drawn (log entry 8). -/
  freeDraws : Nat
  deriving DecidableEq, Repr

/-- Reasons the MODEL stops. -/
inductive Fault where
  /-- Raised by `step` on a state whose status is not RUNNING: "a state with status HALTED-NORMAL or
  HALTED-FAULT has no step" (R256). Safe: the block takes no step there either. -/
  | runEnded
  deriving DecidableEq, Repr

/-- Reasons the model has no meaning for a request. -/
inductive Refusal where
  /-- Raised by `exec` for an instruction without a meaning (no arm does so now). Safe. -/
  | notModelled (mnemonic : String)
  /-- Raised by `construct` for a code buffer longer than CODE_MAX, "refused at construction (no run)" (D15).
  Safe. -/
  | codeBufferTooLong
  deriving DecidableEq, Repr

/-- Empty memory (R24). -/
def Memory.empty : Memory := { cells := [], len := 0 }

/-- The state after construction of a run from its parameters and buffers (R46, R290, R291): empty stack
and memory, JDEST from the scan, pc 0, RUNNING, empty return buffer, step counter 0. The fault record is
"unspecified" in R46; the values here are a DESIGN CHOICE (log entry 5), and so is `freeDraws` (log entry 8). -/
def State.initial (memCapacity codeMax stepBudget : Nat) (code calldata : List Byte) : State where
  stack := []
  mem := Memory.empty
  code := code
  calldata := calldata
  jdest := jumpDests code
  pc := 0
  status := .running
  ret := []
  steps := 0
  faultKind := .stackOverflow
  faultPc := 0
  memCapacity := memCapacity
  codeMax := codeMax
  stepBudget := stepBudget
  freeDraws := 0

/-- The machine right after reset with no code and no calldata supplied (log entry 7); the parameters are a
DESIGN CHOICE (log entry 6). -/
def State.reset : State :=
  State.initial Config.resetMemCapacity Config.resetCodeMax Config.resetStepBudget [] []

end Sys2Proof.Machine
end

