-- ==== Sys2Proof/Machine/Alu.lean ====
section
/-! DEFINITION. The ALU (spec/40_word_alu.md R100, spec/10_state.md R40): combinational, no flags, no faults. -/

namespace Sys2Proof.Machine

/-- The ALU's operations (R40). -/
inductive AluOp where
  | add
  | sub
  | mul
  deriving DecidableEq, Repr

/-- `ALU(op, a, b)`, the exact integer result reduced modulo 2^256 (R100, R101). -/
def alu (op : AluOp) (a b : Word) : Word :=
  match op with
  | .add => BitVec.ofInt 256 ((a.toNat : Int) + (b.toNat : Int))
  | .sub => BitVec.ofInt 256 ((a.toNat : Int) - (b.toNat : Int))
  | .mul => BitVec.ofInt 256 ((a.toNat : Int) * (b.toNat : Int))

end Sys2Proof.Machine
end

