-- ==== Sys2Proof/Machine/Flags.lean ====
section
/-! DEFINITION. The block has no condition codes, carry, overflow or zero flags (spec/10_state.md R33). The one
status bit is the halted flag (R32); the one condition is JUMPI's test of a popped Word (R33, spec/43_control.md R234). -/

namespace Sys2Proof.Machine

/-- The halted flag: "true exactly when status ≠ RUNNING" (R32). -/
def State.halted (s : State) : Bool := decide (s.status ≠ .running)

/-- JUMPI takes the jump for any nonzero condition Word (R234). -/
def conditionHolds (c : Word) : Bool := decide (c ≠ 0)

end Sys2Proof.Machine
end

