-- ==== Sys2Proof/Machine/Operands.lean ====
section
/-! DEFINITION. Where operands come from and results go: the stack controller's commands (spec/41_stack.md R120
to R123), the reads of the code and calldata buffers (spec/20_memory.md R62, R63; spec/44_sequencer.md R250), the
jump target check (spec/43_control.md R231) and zext_256 (spec/00_scope.md R8). -/

namespace Sys2Proof.Machine

/-! ### Stack controller commands, on the stack alone (R41, R44: an error leaves the stack as it was) -/

/-- `Push(w)` (R120). -/
def stkPush (w : Word) (S : List Word) : Except FaultKind (List Word) :=
  if S.length = Config.stackDepth then .error .stackOverflow else .ok (w :: S)

/-- `Pop()` (R121). -/
def stkPop (S : List Word) : Except FaultKind (Word × List Word) :=
  match S with
  | [] => .error .stackUnderflow
  | w :: rest => .ok (w, rest)

/-- `Peek(n)`: `top(n)` without removing it (R122). -/
def stkPeek (n : Nat) (S : List Word) : Except FaultKind Word :=
  match S[n]? with
  | some w => .ok w
  | none => .error .stackUnderflow

/-- `Swap(n)`: exchange `top(0)` and `top(n)`; n = 0 is tested first (R123, C1, C3). -/
def stkSwap (n : Nat) (S : List Word) : Except FaultKind (List Word) :=
  if n = 0 then .error .invalidStackIndex
  else
    match S[0]?, S[n]? with
    | some a, some b => .ok ((S.set 0 b).set n a)
    | _, _ => .error .stackUnderflow

/-! ### The same commands issued by the sequencer -/

/-- Replace the stack. -/
def State.withStack (S : List Word) (s : State) : State := { s with stack := S }

/-- Push onto the state's stack (R120). -/
def State.push (w : Word) (s : State) : Except FaultKind State :=
  match stkPush w s.stack with
  | .ok S => .ok (s.withStack S)
  | .error k => .error k

/-- Pop from the state's stack (R121). -/
def State.pop (s : State) : Except FaultKind (Word × State) :=
  match stkPop s.stack with
  | .ok (w, S) => .ok (w, s.withStack S)
  | .error k => .error k

/-- Peek into the state's stack (R122). -/
def State.peek (n : Nat) (s : State) : Except FaultKind Word := stkPeek n s.stack

/-- Swap in the state's stack (R123). -/
def State.swap (n : Nat) (s : State) : Except FaultKind State :=
  match stkSwap n s.stack with
  | .ok S => .ok (s.withStack S)
  | .error k => .error k

/-- Two pops; the first popped is the top (R105: "first pop = top of stack"). -/
def State.popTwo (s : State) : Except FaultKind (Word × Word × State) :=
  match s.pop with
  | .error k => .error k
  | .ok (a, s1) =>
    match s1.pop with
    | .error k => .error k
    | .ok (b, s2) => .ok (a, b, s2)

/-! ### Code and calldata read ports (R43, R62, R63); they never fail -/

/-- `CodeByte(i)` (R62). -/
def State.codeByte (i : Nat) (s : State) : Byte := readByte s.code i

/-- `CodeWord(i)` (R63). -/
def State.codeWord (i : Nat) (s : State) : Word := readWord s.code i

/-- `CalldataByte(i)` (R62). -/
def State.calldataByte (i : Nat) (s : State) : Byte := readByte s.calldata i

/-- `CalldataWord(i)` (R63). -/
def State.calldataWord (i : Nat) (s : State) : Word := readWord s.calldata i

/-- `setPc(target)`: unconditionally sets pc (R239). -/
def State.setPc (t : Nat) (s : State) : State := { s with pc := t }

/-- Move pc past n bytes of code (R250, R251). -/
def State.advance (n : Nat) (s : State) : State := s.setPc (s.pc + n)

/-- `ReadCode(n)`: the big-endian integer of the n bytes at pc, and pc moved past them (R250). -/
def State.readCode (n : Nat) (s : State) : Word × State :=
  (BitVec.ofNat 256 (readBE s.code s.pc n), s.advance n)

/-- `JumpValid(t)`: t, at its full 256-bit value, is a member of JDEST (R231, D22). -/
def State.jumpValid (t : Word) (s : State) : Bool := decide (t.toNat ∈ s.jdest)

/-- `zext_256(v)`: the Word of equal value for v below 2^256 (R8). For a larger v, which only a memory or a code
buffer of 2^256 bytes or more could give, R8 defines no value and the model draws a free one (log entry 9). -/
def State.zext256 (v : Nat) (s : State) : Word × State :=
  if v < 2 ^ 256 then (BitVec.ofNat 256 v, s)
  else (Config.freeWord s.freeDraws, { s with freeDraws := s.freeDraws + 1 })

end Sys2Proof.Machine
end

