-- ==== Sys2Proof/Machine/Ops.lean ====
section
/-! DEFINITION. The named operations that meanings share: the memory commands (spec/20_memory.md R52 to R59), halting
(spec/43_control.md R236, R237), fault entry (spec/60_exceptions.md R272 to R274) and the close of a step
(spec/44_sequencer.md R253 to R255). -/

namespace Sys2Proof.Machine

/-! ### Memory cells in canonical form -/

/-- The byte listed at an address, or 0 where none is listed. -/
def cellAt (cells : List Host.Cell) (a : Nat) : Byte :=
  match cells with
  | [] => 0
  | (x, v) :: rest => if x = a then v else cellAt rest a

/-- Write one byte, keeping the addresses rising and listing no 0. -/
def setCell (cells : List Host.Cell) (a : Nat) (v : Byte) : List Host.Cell :=
  match cells with
  | [] => if v = 0 then [] else [(a, v)]
  | (x, u) :: rest =>
    if a < x then (if v = 0 then (x, u) :: rest else (a, v) :: (x, u) :: rest)
    else if a = x then (if v = 0 then rest else (a, v) :: rest)
    else (x, u) :: setCell rest a v

/-- Write consecutive bytes from an address on. -/
def setCells (cells : List Host.Cell) (a : Nat) (bs : List Byte) : List Host.Cell :=
  match bs with
  | [] => cells
  | b :: rest => setCells (setCell cells a b) (a + 1) rest

/-! ### Memory commands (R42), each atomic (R44): an error leaves memory as it was -/

/-- `NewLen(MLEN, k)`: the length after an access whose highest byte index is k (R52). -/
def newLen (len k : Nat) : Nat := max (len / 32) ((k + 1 + 31) / 32) * 32

/-- Whether memory of length `len` can grow to cover byte k: k is below 2^256 (R51, log entry 18) and the new length is
within the capacity (R54). Only these two are tested, so MSTORE8 at offset 2^256 - 1 completes where the capacity allows
it, although a corner case of R220 has it fault: DESIGN CHOICE (log entry 19). -/
abbrev fits (cap len k : Nat) : Prop := k < 2 ^ 256 ∧ newLen len k ≤ cap

/-- `Grow(k)`: extend memory to cover byte k, the new bytes 0, or MemoryLimit where it does not fit (R51, R52, R54). -/
def Memory.grow (cap k : Nat) (m : Memory) : Except FaultKind Memory :=
  if fits cap m.len k then .ok { cells := m.cells.filter fun c => c.1 < m.len, len := newLen m.len k }
  else .error .memoryLimit

/-- `MemLoad8(off)`: never grows, never fails (R56). -/
def Memory.load8 (off : Nat) (m : Memory) : Byte := if off < m.len then cellAt m.cells off else 0

/-- The n bytes from off on, each as `MemLoad8` reads it. -/
def Memory.bytesAt (off n : Nat) (m : Memory) : List Byte := (List.range n).map fun i => m.load8 (off + i)

/-- `MemStore8(off, v)`: the value is tested before any growth (R55). -/
def Memory.store8 (cap off v : Nat) (m : Memory) : Except FaultKind Memory :=
  if v > 255 then .error .invalidMemoryValue
  else
    match m.grow cap off with
    | .error k => .error k
    | .ok m1 => .ok { m1 with cells := setCell m1.cells off (BitVec.ofNat 8 v) }

/-- `MemLoadRange(off, n)`: grows to cover the range; a range of no bytes covers nothing (R57, D4). -/
def Memory.loadRange (cap off n : Nat) (m : Memory) : Except FaultKind (List Byte × Memory) :=
  if n = 0 then .ok ([], m)
  else
    match m.grow cap (off + n - 1) with
    | .error k => .error k
    | .ok m1 => .ok (m1.bytesAt off n, m1)

/-- `MemStoreWord(off, w)`: 32 bytes, most significant first (R58, R64). -/
def Memory.storeWord (cap off : Nat) (w : Word) (m : Memory) : Except FaultKind Memory :=
  match m.grow cap (off + 31) with
  | .error k => .error k
  | .ok m1 => .ok { m1 with cells := setCells m1.cells off (beBytes 32 w) }

/-- `MemWordCount()` (R59). -/
def Memory.wordCount (m : Memory) : Nat := m.len / 32

/-! ### Memory commands issued by the sequencer -/

/-- Replace the memory. -/
def State.withMem (m : Memory) (s : State) : State := { s with mem := m }

/-- Store one byte in the state's memory (R55). -/
def State.memStore8 (off v : Nat) (s : State) : Except FaultKind State :=
  match s.mem.store8 s.memCapacity off v with
  | .ok m => .ok (s.withMem m)
  | .error k => .error k

/-! ### Halting normally -/

/-- `halt_normal(r)`: HALTED-NORMAL with return buffer r (R10). -/
def State.haltNormal (r : List Byte) (s : State) : State := { s with status := .haltedNormal, ret := r }

/-- `stop()`: halt normally with an empty return buffer (R237). -/
def State.stop (s : State) : State := s.haltNormal []

/-- `setReturnData(offset, length)`: copy that memory range into the return buffer through MemLoadRange and halt
normally (R236, D21). -/
def State.setReturnData (off n : Nat) (s : State) : Except FaultKind State :=
  match s.mem.loadRange s.memCapacity off n with
  | .ok (r, m) => .ok ((s.withMem m).haltNormal r)
  | .error k => .error k

/-! ### Fault entry. There is no return from a fault (R276) -/

/-- `fault(F, p)` of R253: the status and the fault record, "Nothing else is saved" (R272). -/
def State.recordFault (k : FaultKind) (p : Nat) (s : State) : State :=
  { s with status := .haltedFault, faultKind := k, faultPc := p }

/-- Memory with contents drawn free, within the limits R24 sets: the length a multiple of 32 and at most the
capacity. -/
def Memory.free (cap draw : Nat) : Memory :=
  let len := 32 * min (Config.freeMemWords draw) (cap / 32)
  { cells := ((Config.freeCells draw).filter fun c => c.1 < len).foldl (fun cs c => setCell cs c.1 c.2) []
    len := len }

/-- Make unspecified what R274 leaves unspecified after a fault: stack, memory, return buffer and step counter become
free values, within the bounds R21, R24, R34 and R280 set (log entry 2). -/
def State.forgetContents (s : State) : State :=
  { s with
    stack := (Config.freeStack s.freeDraws).take Config.stackDepth
    mem := Memory.free s.memCapacity s.freeDraws
    ret := (Config.freeRet s.freeDraws).take s.memCapacity
    steps := min (Config.freeSteps s.freeDraws) (s.stepBudget + 1)
    freeDraws := s.freeDraws + 1 }

/-- Taking a fault, whether decode, an instruction or the step budget raises it: the record of R272 with fault_pc as R273
fixes it, and everything R274 leaves unspecified made free. The one shared fault entry. -/
def State.raiseFault (k : FaultKind) (p : Nat) (s : State) : State := s.forgetContents.recordFault k p

/-! ### Running a handler, and closing a step -/

/-- Run an instruction of `len` bytes that starts at pc: move pc past it (R28, R250, R251), then run its body; a raise
ends the instruction with the fault at pc0 (R10, R11, R273). -/
def runHandler (len : Nat) (body : State → Except FaultKind State) (s : State) : Host.Outcome State Fault Refusal :=
  match body (s.advance len) with
  | .ok t => .next t
  | .error k => .next ((s.advance len).raiseFault k s.pc)

/-- Count a completed instruction (R254). -/
def State.countStep (s : State) : State := { s with steps := s.steps + 1 }

/-- The lines of R253 after `execute h`: a faulted instruction has ended the run and is not counted (R254); a completed
one is counted; a normal halt wins over the budget (R255, R275); past the budget the run takes the fault with the pc after
the instruction (R255, R273), and what R274 leaves unspecified is free after it as after any fault (log entry 3). -/
def State.retire (s : State) : State :=
  match s.status with
  | .haltedFault => s
  | .haltedNormal => s.countStep
  | .running =>
    if s.steps + 1 > s.stepBudget then s.countStep.raiseFault .stepBudgetExceeded s.pc else s.countStep

/-- Close a step on the outcome of its instruction. -/
def retireOutcome (o : Host.Outcome State Fault Refusal) : Host.Outcome State Fault Refusal :=
  match o with
  | .next t => .next t.retire
  | .fault r => .fault r
  | .refused r => .refused r

end Sys2Proof.Machine
end

