-- ==== Sys2Proof/Machine/Arith.lean ====
section
/-! DEFINITION. The arithmetic instructions (spec/40_word_alu.md R105 to R107): two pops, the ALU, one push. -/

namespace Sys2Proof.Machine

/-- a <- Pop(); b <- Pop(); Push(ALU(op, a, b)) (R105 to R107). -/
def aluBody (op : AluOp) (s : State) : Except FaultKind State :=
  match s.popTwo with
  | .error k => .error k
  | .ok (a, b, s1) => s1.push (alu op a b)

/-- ADD (R105). -/
def execAdd (s : State) : Host.Outcome State Fault Refusal := runHandler 1 (aluBody .add) s

/-- MUL (R106). -/
def execMul (s : State) : Host.Outcome State Fault Refusal := runHandler 1 (aluBody .mul) s

/-- SUB: first popped minus second popped (R107). -/
def execSub (s : State) : Host.Outcome State Fault Refusal := runHandler 1 (aluBody .sub) s

end Sys2Proof.Machine
end

