-- ==== Sys2Proof/Machine/MemOps.lean ====
section
/-! DEFINITION. The memory instructions (spec/42_memory_ops.md R220, R221). -/

namespace Sys2Proof.Machine

/-- off <- Pop(); val <- Pop(); MemStore8(off, val mod 256) (R220, C5; for off = 2^256 - 1, log entry 19). -/
def mstore8Body (s : State) : Except FaultKind State :=
  match s.popTwo with
  | .error k => .error k
  | .ok (off, val, s1) => s1.memStore8 off.toNat (val.toNat % 256)

/-- MSTORE8 (R220). -/
def execMstore8 (s : State) : Host.Outcome State Fault Refusal := runHandler 1 mstore8Body s

/-- Push(zext_256(v)), for MSIZE and PC (R221, R232). -/
def pushNat (v : Nat) (s : State) : Except FaultKind State := (s.zext256 v).2.push (s.zext256 v).1

/-- MSIZE: Push(zext_256(32 × MemWordCount())) (R221). -/
def execMsize (s : State) : Host.Outcome State Fault Refusal := runHandler 1 (fun s1 => pushNat (32 * s1.mem.wordCount) s1) s

end Sys2Proof.Machine
end

