-- ==== Sys2Proof/Machine/Control.lean ====
section
/-! DEFINITION. Control transfer and halting instructions (spec/43_control.md R232 to R237). -/

namespace Sys2Proof.Machine

/-- PC: Push(zext_256(pc0)), the offset of this instruction's own opcode byte (R232). -/
def execPc (s : State) : Host.Outcome State Fault Refusal := runHandler 1 (pushNat s.pc) s

/-- if not JumpValid(t): raise InvalidJumpDestination; pc <- t (R233). -/
def jumpTo (t : Word) (s : State) : Except FaultKind State :=
  if s.jumpValid t then .ok (s.setPc t.toNat) else .error .invalidJumpDestination

/-- t <- Pop(), then the jump (R233). -/
def jumpBody (s : State) : Except FaultKind State :=
  match s.pop with
  | .error k => .error k
  | .ok (t, s1) => jumpTo t s1

/-- JUMP (R233). -/
def execJump (s : State) : Host.Outcome State Fault Refusal := runHandler 1 jumpBody s

/-- t <- Pop(); c <- Pop(); the jump when c is not 0; the target is not checked otherwise (R234). -/
def jumpiBody (s : State) : Except FaultKind State :=
  match s.popTwo with
  | .error k => .error k
  | .ok (t, c, s1) => if conditionHolds c then jumpTo t s1 else .ok s1

/-- JUMPI (R234). -/
def execJumpi (s : State) : Host.Outcome State Fault Refusal := runHandler 1 jumpiBody s

/-- JUMPDEST: no operation (R235). -/
def execJumpdest (s : State) : Host.Outcome State Fault Refusal := runHandler 1 (fun s1 => .ok s1) s

/-- off <- Pop(); len <- Pop(); setReturnData(off, len) (R236). -/
def returnBody (s : State) : Except FaultKind State :=
  match s.popTwo with
  | .error k => .error k
  | .ok (off, len, s1) => s1.setReturnData off.toNat len.toNat

/-- RETURN (R236). -/
def execReturn (s : State) : Host.Outcome State Fault Refusal := runHandler 1 returnBody s

/-- STOP: halt normally with an empty return buffer (R237). -/
def execStop (s : State) : Host.Outcome State Fault Refusal := runHandler 1 (fun s1 => .ok s1.stop) s

/-- The synthetic STOP at or past the end of code: STOP's effect, "pc is not advanced" (R252, R237). -/
def execSyntheticStop (s : State) : Host.Outcome State Fault Refusal := runHandler 0 (fun s1 => .ok s1.stop) s

end Sys2Proof.Machine
end

