-- ==== Sys2Proof/Machine/Dup.lean ====
section
/-! DEFINITION. DUP1 to DUP16 (spec/41_stack.md R158 to R174). -/

namespace Sys2Proof.Machine

/-- DUPn: v <- Peek(n - 1); Push(v) (R158). -/
def dupBody (n : Nat) (s : State) : Except FaultKind State :=
  match s.peek (n - 1) with
  | .error k => .error k
  | .ok v => s.push v

/-- DUPn, one byte long (R158). -/
def execDup (n : Nat) (s : State) : Host.Outcome State Fault Refusal := runHandler 1 (dupBody n) s

/-- DUP1 (R159). -/
def execDup1 (s : State) : Host.Outcome State Fault Refusal := execDup 1 s

/-- DUP2 (R160). -/
def execDup2 (s : State) : Host.Outcome State Fault Refusal := execDup 2 s

/-- DUP3 (R161). -/
def execDup3 (s : State) : Host.Outcome State Fault Refusal := execDup 3 s

/-- DUP4 (R162). -/
def execDup4 (s : State) : Host.Outcome State Fault Refusal := execDup 4 s

/-- DUP5 (R163). -/
def execDup5 (s : State) : Host.Outcome State Fault Refusal := execDup 5 s

/-- DUP6 (R164). -/
def execDup6 (s : State) : Host.Outcome State Fault Refusal := execDup 6 s

/-- DUP7 (R165). -/
def execDup7 (s : State) : Host.Outcome State Fault Refusal := execDup 7 s

/-- DUP8 (R166). -/
def execDup8 (s : State) : Host.Outcome State Fault Refusal := execDup 8 s

/-- DUP9 (R167). -/
def execDup9 (s : State) : Host.Outcome State Fault Refusal := execDup 9 s

/-- DUP10 (R168). -/
def execDup10 (s : State) : Host.Outcome State Fault Refusal := execDup 10 s

/-- DUP11 (R169). -/
def execDup11 (s : State) : Host.Outcome State Fault Refusal := execDup 11 s

/-- DUP12 (R170). -/
def execDup12 (s : State) : Host.Outcome State Fault Refusal := execDup 12 s

/-- DUP13 (R171). -/
def execDup13 (s : State) : Host.Outcome State Fault Refusal := execDup 13 s

/-- DUP14 (R172). -/
def execDup14 (s : State) : Host.Outcome State Fault Refusal := execDup 14 s

/-- DUP15 (R173). -/
def execDup15 (s : State) : Host.Outcome State Fault Refusal := execDup 15 s

/-- DUP16 (R174). -/
def execDup16 (s : State) : Host.Outcome State Fault Refusal := execDup 16 s

end Sys2Proof.Machine
end

