-- ==== Sys2Proof/Machine/Push.lean ====
section
/-! DEFINITION. PUSH1 to PUSH32 (spec/41_stack.md R125 to R157). The immediate was read by the decoder as ReadCode(n) reads it (R82, R250). -/

namespace Sys2Proof.Machine

/-- PUSHn: pc moves past the opcode byte and the n immediate bytes, then Push(imm) (R125). -/
def execPush (n : Nat) (imm : Word) (s : State) : Host.Outcome State Fault Refusal :=
  runHandler (1 + n) (fun s1 => s1.push imm) s

/-- PUSH1 (R126). -/
def execPush1 (imm : Word) (s : State) : Host.Outcome State Fault Refusal := execPush 1 imm s

/-- PUSH2 (R127). -/
def execPush2 (imm : Word) (s : State) : Host.Outcome State Fault Refusal := execPush 2 imm s

/-- PUSH3 (R128). -/
def execPush3 (imm : Word) (s : State) : Host.Outcome State Fault Refusal := execPush 3 imm s

/-- PUSH4 (R129). -/
def execPush4 (imm : Word) (s : State) : Host.Outcome State Fault Refusal := execPush 4 imm s

/-- PUSH5 (R130). -/
def execPush5 (imm : Word) (s : State) : Host.Outcome State Fault Refusal := execPush 5 imm s

/-- PUSH6 (R131). -/
def execPush6 (imm : Word) (s : State) : Host.Outcome State Fault Refusal := execPush 6 imm s

/-- PUSH7 (R132). -/
def execPush7 (imm : Word) (s : State) : Host.Outcome State Fault Refusal := execPush 7 imm s

/-- PUSH8 (R133). -/
def execPush8 (imm : Word) (s : State) : Host.Outcome State Fault Refusal := execPush 8 imm s

/-- PUSH9 (R134). -/
def execPush9 (imm : Word) (s : State) : Host.Outcome State Fault Refusal := execPush 9 imm s

/-- PUSH10 (R135). -/
def execPush10 (imm : Word) (s : State) : Host.Outcome State Fault Refusal := execPush 10 imm s

/-- PUSH11 (R136). -/
def execPush11 (imm : Word) (s : State) : Host.Outcome State Fault Refusal := execPush 11 imm s

/-- PUSH12 (R137). -/
def execPush12 (imm : Word) (s : State) : Host.Outcome State Fault Refusal := execPush 12 imm s

/-- PUSH13 (R138). -/
def execPush13 (imm : Word) (s : State) : Host.Outcome State Fault Refusal := execPush 13 imm s

/-- PUSH14 (R139). -/
def execPush14 (imm : Word) (s : State) : Host.Outcome State Fault Refusal := execPush 14 imm s

/-- PUSH15 (R140). -/
def execPush15 (imm : Word) (s : State) : Host.Outcome State Fault Refusal := execPush 15 imm s

/-- PUSH16 (R141). -/
def execPush16 (imm : Word) (s : State) : Host.Outcome State Fault Refusal := execPush 16 imm s

/-- PUSH17 (R142). -/
def execPush17 (imm : Word) (s : State) : Host.Outcome State Fault Refusal := execPush 17 imm s

/-- PUSH18 (R143). -/
def execPush18 (imm : Word) (s : State) : Host.Outcome State Fault Refusal := execPush 18 imm s

/-- PUSH19 (R144). -/
def execPush19 (imm : Word) (s : State) : Host.Outcome State Fault Refusal := execPush 19 imm s

/-- PUSH20 (R145). -/
def execPush20 (imm : Word) (s : State) : Host.Outcome State Fault Refusal := execPush 20 imm s

/-- PUSH21 (R146). -/
def execPush21 (imm : Word) (s : State) : Host.Outcome State Fault Refusal := execPush 21 imm s

/-- PUSH22 (R147). -/
def execPush22 (imm : Word) (s : State) : Host.Outcome State Fault Refusal := execPush 22 imm s

/-- PUSH23 (R148). -/
def execPush23 (imm : Word) (s : State) : Host.Outcome State Fault Refusal := execPush 23 imm s

/-- PUSH24 (R149). -/
def execPush24 (imm : Word) (s : State) : Host.Outcome State Fault Refusal := execPush 24 imm s

/-- PUSH25 (R150). -/
def execPush25 (imm : Word) (s : State) : Host.Outcome State Fault Refusal := execPush 25 imm s

/-- PUSH26 (R151). -/
def execPush26 (imm : Word) (s : State) : Host.Outcome State Fault Refusal := execPush 26 imm s

/-- PUSH27 (R152). -/
def execPush27 (imm : Word) (s : State) : Host.Outcome State Fault Refusal := execPush 27 imm s

/-- PUSH28 (R153). -/
def execPush28 (imm : Word) (s : State) : Host.Outcome State Fault Refusal := execPush 28 imm s

/-- PUSH29 (R154). -/
def execPush29 (imm : Word) (s : State) : Host.Outcome State Fault Refusal := execPush 29 imm s

/-- PUSH30 (R155). -/
def execPush30 (imm : Word) (s : State) : Host.Outcome State Fault Refusal := execPush 30 imm s

/-- PUSH31 (R156). -/
def execPush31 (imm : Word) (s : State) : Host.Outcome State Fault Refusal := execPush 31 imm s

/-- PUSH32 (R157). -/
def execPush32 (imm : Word) (s : State) : Host.Outcome State Fault Refusal := execPush 32 imm s

end Sys2Proof.Machine
end

