-- ==== Sys2Proof/Machine/Swap.lean ====
section
/-! DEFINITION. SWAP1 to SWAP16 (spec/41_stack.md R175 to R191). -/

namespace Sys2Proof.Machine

/-- SWAPn: Swap(n) (R175). -/
def execSwap (n : Nat) (s : State) : Host.Outcome State Fault Refusal := runHandler 1 (fun s1 => s1.swap n) s

/-- SWAP1 (R176). -/
def execSwap1 (s : State) : Host.Outcome State Fault Refusal := execSwap 1 s

/-- SWAP2 (R177). -/
def execSwap2 (s : State) : Host.Outcome State Fault Refusal := execSwap 2 s

/-- SWAP3 (R178). -/
def execSwap3 (s : State) : Host.Outcome State Fault Refusal := execSwap 3 s

/-- SWAP4 (R179). -/
def execSwap4 (s : State) : Host.Outcome State Fault Refusal := execSwap 4 s

/-- SWAP5 (R180). -/
def execSwap5 (s : State) : Host.Outcome State Fault Refusal := execSwap 5 s

/-- SWAP6 (R181). -/
def execSwap6 (s : State) : Host.Outcome State Fault Refusal := execSwap 6 s

/-- SWAP7 (R182). -/
def execSwap7 (s : State) : Host.Outcome State Fault Refusal := execSwap 7 s

/-- SWAP8 (R183). -/
def execSwap8 (s : State) : Host.Outcome State Fault Refusal := execSwap 8 s

/-- SWAP9 (R184). -/
def execSwap9 (s : State) : Host.Outcome State Fault Refusal := execSwap 9 s

/-- SWAP10 (R185). -/
def execSwap10 (s : State) : Host.Outcome State Fault Refusal := execSwap 10 s

/-- SWAP11 (R186). -/
def execSwap11 (s : State) : Host.Outcome State Fault Refusal := execSwap 11 s

/-- SWAP12 (R187). -/
def execSwap12 (s : State) : Host.Outcome State Fault Refusal := execSwap 12 s

/-- SWAP13 (R188). -/
def execSwap13 (s : State) : Host.Outcome State Fault Refusal := execSwap 13 s

/-- SWAP14 (R189). -/
def execSwap14 (s : State) : Host.Outcome State Fault Refusal := execSwap 14 s

/-- SWAP15 (R190). -/
def execSwap15 (s : State) : Host.Outcome State Fault Refusal := execSwap 15 s

/-- SWAP16 (R191). -/
def execSwap16 (s : State) : Host.Outcome State Fault Refusal := execSwap 16 s

end Sys2Proof.Machine
end

