-- ==== Sys2Proof/Machine/Step.lean ====
section
/-! DEFINITION. One step of the sequencer (spec/44_sequencer.md R252, R253, R256) and the fixed name by which one
instruction is placed where the next step fetches it. -/

namespace Sys2Proof.Machine

/-- One step (R253), "taken only while status = RUNNING": decode at pc (R252), execute, count and test the budget.
An unregistered byte is consumed and raises InvalidOpcode at pc0 (R252, R273). A run that has ended has no step
(R256). -/
def step (s : State) : Host.Outcome State Fault Refusal :=
  match s.status with
  | .running =>
    match decodeAt s.code s.pc with
    | .instr i => retireOutcome (exec i s)
    | .syntheticStop => retireOutcome (execSyntheticStop s)
    | .invalidOpcode _ => .next ((s.advance 1).raiseFault .invalidOpcode s.pc)
  | .haltedNormal => .fault .runEnded
  | .haltedFault => .fault .runEnded

/-- The instruction of an opcode-table word placed in the code at pc, as a construction with that code would: JDEST
is its scan (R31, R291), and the run is RUNNING so that the next step runs it (log entry 7). -/
def State.withFetchWord (s : State) (nbits w : Nat) : State :=
  { s with
    code := placeCode s.code s.pc (tableBytes nbits w)
    jdest := jumpDests (placeCode s.code s.pc (tableBytes nbits w))
    status := .running }

end Sys2Proof.Machine
end

