-- ==== Sys2Proof/Machine/Assembler.lean ====
section
/-! DEFINITION. The assembler of spec/30_encoding.md R88: one item per instruction, a mnemonic and for PUSHn one immediate
in hexadecimal, in decimal or a label; a label stands before an instruction and means its code offset. There are no
pseudo-instructions (R89). Text is a list of characters. -/

namespace Sys2Proof.Machine

/-- Why a text does not assemble. -/
inductive AsmError where
  | unknownMnemonic
  | missingImmediate
  | badNumber
  | immediateTooLarge
  | unknownLabel
  | labelTwice
  deriving DecidableEq, Repr

/-- An immediate as written. -/
inductive AsmImm where
  | number (v : Nat)
  | label (name : List Char)
  deriving DecidableEq, Repr

/-- One item of a program: a label or an instruction. -/
inductive AsmItem where
  | label (name : List Char)
  | instr (mnemonic : List Char) (imm : Option AsmImm)
  deriving DecidableEq, Repr

/-- White space and commas separate tokens (R88 writes both "PUSH1 0x5B STOP" and "PUSH1 1, PUSH1 2, ADD, STOP"). -/
def isSeparator (c : Char) : Bool := c.isWhitespace || c == ','

/-- Cut a text into tokens; `cur` is the token being read. -/
def tokenize (cur : List Char) (text : List Char) : List (List Char) :=
  match text with
  | [] => if cur = [] then [] else [cur]
  | c :: rest =>
    if isSeparator c then (if cur = [] then tokenize [] rest else cur :: tokenize [] rest)
    else tokenize (cur ++ [c]) rest

/-- The value of a digit in a base up to 16. -/
def digitValue (base : Nat) (c : Char) : Option Nat :=
  let v := if '0' ≤ c ∧ c ≤ '9' then some (c.toNat - '0'.toNat)
    else if 'a' ≤ c ∧ c ≤ 'f' then some (c.toNat - 'a'.toNat + 10)
    else if 'A' ≤ c ∧ c ≤ 'F' then some (c.toNat - 'A'.toNat + 10)
    else none
  match v with
  | some d => if d < base then some d else none
  | none => none

/-- The number a digit sequence writes. -/
def digits (base acc : Nat) (cs : List Char) : Option Nat :=
  match cs with
  | [] => some acc
  | c :: rest =>
    match digitValue base c with
    | some d => digits base (acc * base + d) rest
    | none => none

/-- An immediate token: `0x..` hexadecimal, digits decimal, anything else a label name (R88). -/
def parseImm (tok : List Char) : Except AsmError AsmImm :=
  match tok with
  | '0' :: 'x' :: c :: rest =>
    match digits 16 0 (c :: rest) with
    | some v => .ok (.number v)
    | none => .error .badNumber
  | c :: rest =>
    if '0' ≤ c ∧ c ≤ '9' then
      match digits 10 0 (c :: rest) with
      | some v => .ok (.number v)
      | none => .error .badNumber
    else .ok (.label tok)
  | [] => .error .badNumber

/-- The registry's row of a mnemonic. -/
def lookupMnemonic (m : List Char) : Option OpRow := registry.find? fun r => r.mnemonic.toList == m

/-- Read the items of a token list: `name:` is a label, a PUSHn takes the next token as its immediate. -/
def parseItems (toks : List (List Char)) : Except AsmError (List AsmItem) :=
  match toks with
  | [] => .ok []
  | [tok] =>
    if tok.getLast? = some ':' then .ok [.label tok.dropLast]
    else
      match lookupMnemonic tok with
      | none => .error .unknownMnemonic
      | some r => if r.width = 0 then .ok [.instr tok none] else .error .missingImmediate
  | tok :: tok2 :: rest =>
    if tok.getLast? = some ':' then
      match parseItems (tok2 :: rest) with
      | .ok is => .ok (.label tok.dropLast :: is)
      | .error e => .error e
    else
      match lookupMnemonic tok with
      | none => .error .unknownMnemonic
      | some r =>
        if r.width = 0 then
          match parseItems (tok2 :: rest) with
          | .ok is => .ok (.instr tok none :: is)
          | .error e => .error e
        else
          match parseImm tok2 with
          | .error e => .error e
          | .ok imm =>
            match parseItems rest with
            | .ok is => .ok (.instr tok (some imm) :: is)
            | .error e => .error e

/-- Bytes an item takes. -/
def AsmItem.size (it : AsmItem) : Nat :=
  match it with
  | .label _ => 0
  | .instr m _ =>
    match lookupMnemonic m with
    | some r => 1 + r.width
    | none => 0

/-- The code offset of every label, in a program whose next item stands at offset `off` (R88). -/
def labelOffsets (off : Nat) (is : List AsmItem) : List (List Char × Nat) :=
  match is with
  | [] => []
  | .label name :: rest => (name, off) :: labelOffsets off rest
  | .instr m imm :: rest => labelOffsets (off + (AsmItem.instr m imm).size) rest

/-- The value of an immediate, a label meaning its code offset (R88). -/
def immValue (labels : List (List Char × Nat)) (imm : AsmImm) : Except AsmError Nat :=
  match imm with
  | .number v => .ok v
  | .label name =>
    match labels.find? fun l => l.1 == name with
    | some l => .ok l.2
    | none => .error .unknownLabel

/-- The bytes of one item: a PUSHn immediate is written as exactly n bytes, and one of 256^n or more is refused (R88). An
immediate on an item whose mnemonic is no PUSHn, of which R88 says nothing, is ignored: DESIGN CHOICE (log entry 14). -/
def assembleItem (labels : List (List Char × Nat)) (it : AsmItem) : Except AsmError (List Byte) :=
  match it with
  | .label _ => .ok []
  | .instr m imm =>
    match lookupMnemonic m with
    | none => .error .unknownMnemonic
    | some r =>
      if r.width = 0 then .ok (r.make 0).encode
      else
        match imm with
        | none => .error .missingImmediate
        | some im =>
          match immValue labels im with
          | .error e => .error e
          | .ok v =>
            if v < 256 ^ r.width then .ok (r.make (BitVec.ofNat 256 v)).encode else .error .immediateTooLarge

/-- The bytes of the items in order. -/
def assembleItems (labels : List (List Char × Nat)) (is : List AsmItem) : Except AsmError (List Byte) :=
  match is with
  | [] => .ok []
  | it :: rest =>
    match assembleItem labels it with
    | .error e => .error e
    | .ok bs =>
      match assembleItems labels rest with
      | .error e => .error e
      | .ok more => .ok (bs ++ more)

/-- Assemble a program of items; a label may stand once only. -/
def assemble (is : List AsmItem) : Except AsmError (List Byte) :=
  if ((labelOffsets 0 is).map Prod.fst).Nodup then assembleItems (labelOffsets 0 is) is else .error .labelTwice

/-- Assemble a program text. -/
def assembleText (text : List Char) : Except AsmError (List Byte) :=
  match parseItems (tokenize [] text) with
  | .ok is => assemble is
  | .error e => .error e

/-- The item that writes an instruction (R88). -/
def asmItemOf (i : Instr) : AsmItem :=
  match i.immediate with
  | some (_, v) => .instr i.mnemonic.toList (some (.number v.toNat))
  | none => .instr i.mnemonic.toList none

end Sys2Proof.Machine
end

