-- ==== Sys2Proof/Machine/RunInterface.lean ====
section
/-! DEFINITION. What the caller gives and gets (spec/44_sequencer.md R257, R258, R260; spec/70_reset_and_hazards.md R290):
construction of a run, the run to its end, the result record, the numeric fault codes and the trace hook. -/

namespace Sys2Proof.Machine

/-- Construction of a run (R290, R291). A code buffer longer than CODE_MAX is refused (D15). -/
def construct (memCapacity codeMax stepBudget : Nat) (code calldata : List Byte) :
    Host.Outcome State Fault Refusal :=
  if code.length ≤ codeMax then .next (State.initial memCapacity codeMax stepBudget code calldata)
  else .refused .codeBufferTooLong

/-- The numeric fault codes of R270 (D7). -/
def FaultKind.code (k : FaultKind) : Nat :=
  match k with
  | .stackOverflow => 1
  | .stackUnderflow => 2
  | .invalidStackIndex => 3
  | .invalidMemoryValue => 4
  | .invalidOpcode => 5
  | .invalidJumpDestination => 6
  | .stepBudgetExceeded => 7
  | .memoryLimit => 8

/-- The one result the caller reads after the run has ended (R257). -/
inductive RunResult where
  | haltedNormally (returnData : List Byte)
  | faulted (fault : FaultKind) (pcAtFault : Nat)
  deriving DecidableEq, Repr

/-- The result of a run; none while it is RUNNING (R257). -/
def State.result (s : State) : Option RunResult :=
  match s.status with
  | .running => none
  | .haltedNormal => some (.haltedNormally s.ret)
  | .haltedFault => some (.faulted s.faultKind s.faultPc)

/-- At most n steps, fewer when the run ends earlier. -/
def runSteps (n : Nat) (s : State) : State :=
  match n with
  | 0 => s
  | n + 1 =>
    match step s with
    | .next t => runSteps n t
    | .fault _ => s
    | .refused _ => s

/-- The interpreter loop: a run from s to its end. A run executes at most STEP_BUDGET + 1 instructions (R255, R260). -/
def runToEnd (s : State) : State := runSteps (s.stepBudget + 1 - s.steps) s

/-- A trace record (R258): mnemonic, pc0, and copies of S (bottom first, R9) and of mem (bytes 0 to MLEN - 1). -/
structure TraceRecord where
  opcodeName : String
  pcBeforeExecution : Nat
  stackSnapshot : List Word
  memorySnapshot : List Byte
  deriving DecidableEq, Repr

/-- The record for an instruction of the given name that started at pc0 and left the given outcome; none for an
instruction that faulted (R258, D16). -/
def traceAfter (name : String) (pc0 : Nat) (o : Host.Outcome State Fault Refusal) : Option TraceRecord :=
  match o with
  | .next t =>
    if t.status = .haltedFault then none
    else some { opcodeName := name, pcBeforeExecution := pc0, stackSnapshot := t.stack.reverse,
                memorySnapshot := t.mem.bytesAt 0 t.mem.len }
  | .fault _ => none
  | .refused _ => none

/-- The trace hook on the step from s (R258): one record per completed instruction, the snapshots after it. It reads the
state and writes none. -/
def State.trace (s : State) : Option TraceRecord :=
  match s.status with
  | .running =>
    match decodeAt s.code s.pc with
    | .instr i => traceAfter i.mnemonic s.pc (exec i s)
    | .syntheticStop => traceAfter "STOP" s.pc (execSyntheticStop s)
    | .invalidOpcode _ => none
  | .haltedNormal => none
  | .haltedFault => none

end Sys2Proof.Machine
end

