-- ==== Sys2Proof/Machine/Units.lean ====
section
/-! DEFINITION. The unit interfaces as request and response (spec/10_state.md R40 to R45), over the same operations the
instructions use. Through these the commands and faults that no opcode reaches can be given: Swap(0), MemStore8 of a value
above 255, MemLoad8, MemStoreWord (R123, R222, spec/60_exceptions.md R270). -/

namespace Sys2Proof.Machine

/-- A request to STK (R41). -/
inductive StkCommand where
  | push (w : Word)
  | pop
  | peek (n : Nat)
  | swap (n : Nat)
  deriving DecidableEq, Repr

/-- A response of STK: OK, with a Word for POP and PEEK, or ERR (R41). -/
inductive StkResponse where
  | ok
  | okWord (w : Word)
  | err (k : FaultKind)
  deriving DecidableEq, Repr

/-- One STK command: the response and the stack after it (R41, R44). -/
def stkUnit (c : StkCommand) (S : List Word) : StkResponse × List Word :=
  match c with
  | .push w =>
    match stkPush w S with
    | .ok S1 => (.ok, S1)
    | .error k => (.err k, S)
  | .pop =>
    match stkPop S with
    | .ok (w, S1) => (.okWord w, S1)
    | .error k => (.err k, S)
  | .peek n =>
    match stkPeek n S with
    | .ok w => (.okWord w, S)
    | .error k => (.err k, S)
  | .swap n =>
    match stkSwap n S with
    | .ok S1 => (.ok, S1)
    | .error k => (.err k, S)

/-- A sequence of STK commands, issued one at a time (R45): the responses in order and the stack at the end. -/
def stkRun (cs : List StkCommand) (S : List Word) : List StkResponse × List Word :=
  match cs with
  | [] => ([], S)
  | c :: rest => ((stkUnit c S).1 :: (stkRun rest (stkUnit c S).2).1, (stkRun rest (stkUnit c S).2).2)

/-- A request to MEM (R42). -/
inductive MemCommand where
  | store8 (off v : Nat)
  | load8 (off : Nat)
  | loadRange (off n : Nat)
  | storeWord (off : Nat) (w : Word)
  | wordCount
  deriving DecidableEq, Repr

/-- A response of MEM: OK, with the value the command returns, or ERR (R42). -/
inductive MemResponse where
  | ok
  | okByte (b : Byte)
  | okBytes (bs : List Byte)
  | okNat (n : Nat)
  | err (k : FaultKind)
  deriving DecidableEq, Repr

/-- One MEM command at a given MEM_CAPACITY: the response and the memory after it (R42, R44). -/
def memUnit (cap : Nat) (c : MemCommand) (m : Memory) : MemResponse × Memory :=
  match c with
  | .store8 off v =>
    match m.store8 cap off v with
    | .ok m1 => (.ok, m1)
    | .error k => (.err k, m)
  | .load8 off => (.okByte (m.load8 off), m)
  | .loadRange off n =>
    match m.loadRange cap off n with
    | .ok (bs, m1) => (.okBytes bs, m1)
    | .error k => (.err k, m)
  | .storeWord off w =>
    match m.storeWord cap off w with
    | .ok m1 => (.ok, m1)
    | .error k => (.err k, m)
  | .wordCount => (.okNat m.wordCount, m)

/-- A request to the ALU (R40). -/
structure AluRequest where
  op : AluOp
  a : Word
  b : Word
  deriving DecidableEq, Repr

/-- The ALU's response (R40). -/
def aluUnit (r : AluRequest) : Word := alu r.op r.a r.b

/-- A request to a read port of the code or the calldata buffer (R43). -/
inductive ReadCommand where
  | readByte (i : Nat)
  | readWord (i : Nat)
  deriving DecidableEq, Repr

/-- A read port's response (R43); the reads never fail. -/
inductive ReadResponse where
  | byte (b : Byte)
  | word (w : Word)
  deriving DecidableEq, Repr

/-- The code read port (R43). -/
def codePort (c : ReadCommand) (s : State) : ReadResponse :=
  match c with
  | .readByte i => .byte (s.codeByte i)
  | .readWord i => .word (s.codeWord i)

/-- The calldata read port (R43). -/
def calldataPort (c : ReadCommand) (s : State) : ReadResponse :=
  match c with
  | .readByte i => .byte (s.calldataByte i)
  | .readWord i => .word (s.calldataWord i)

end Sys2Proof.Machine
end

