-- ==== Sys2Proof/Safety.lean ====
section
/-! DEFINITION. What claims are stated in: the invariant of the machine, the instruction starts of a code buffer, and what
a raised fault leaves. -/

namespace Sys2Proof.Machine

/-- What the rules say of every state of a run. What R274 leaves unspecified after a fault (stack, memory with its length, ret,
steps) is spoken of only where the run has not faulted; the canonical form of the memory list, which every memory has, is the
model's own and always holds (log entry 10). -/
structure State.Inv (s : State) : Prop where
  /-- The memory list is in canonical form, which says nothing of the memory it stands for. -/
  memCanonical : s.mem.canonical
  /-- MLEN is a multiple of 32 (R24). -/
  memLen : s.status ≠ .haltedFault → s.mem.len % 32 = 0
  /-- MEM_CAPACITY is a positive multiple of 32 (R5). -/
  capacity : 0 < s.memCapacity ∧ s.memCapacity % 32 = 0
  /-- CODE_LEN ≤ CODE_MAX (R5, D15). -/
  codeBound : s.code.length ≤ s.codeMax
  /-- JDEST is the scan of the code (R31, R72). -/
  jdestScan : s.jdest = jumpDests s.code
  /-- pc ≤ CODE_LEN + 32 (R29). -/
  pcBound : s.pc ≤ s.code.length + 32
  /-- "length ≤ max_depth (1024)" (R21). -/
  stackBound : s.status ≠ .haltedFault → s.stack.length ≤ 1024
  /-- MLEN ≤ MEM_CAPACITY (R24, R54). -/
  memBound : s.status ≠ .haltedFault → s.mem.len ≤ s.memCapacity
  /-- The return buffer is at most MEM_CAPACITY bytes (R34). -/
  retBound : s.status ≠ .haltedFault → s.ret.length ≤ s.memCapacity
  /-- The return buffer is "empty until RETURN executes" (R34). -/
  retRunning : s.status = .running → s.ret = []
  /-- A run that has not faulted has counted at most STEP_BUDGET + 1 instructions (R255). -/
  stepsBound : s.status ≠ .haltedFault → s.steps ≤ s.stepBudget + 1
  /-- A running run has not exceeded its budget (R253). -/
  stepsRunning : s.status = .running → s.steps ≤ s.stepBudget

/-- The opcode offsets of the linear decode from offset 0: offset 0, and after an opcode its immediate bytes are skipped
(R83, R230). An end of code reached by the decode, or passed inside an immediate, counts as an offset it comes to. -/
inductive OpcodeOffset (code : List Byte) : Nat → Prop where
  | zero : OpcodeOffset code 0
  | next (i : Nat) (b : Byte) (h : OpcodeOffset code i) (hb : code[i]? = some b) :
      OpcodeOffset code (i + 1 + immWidth b)

/-- pc stands where the linear decode comes to (R30, R87). -/
def State.AtInstruction (s : State) : Prop := OpcodeOffset s.code s.pc

/-- The parts of the state that are fixed at construction are the same (R26, R27, R31, R61, R5). -/
def State.SameRun (s t : State) : Prop :=
  t.code = s.code ∧ t.calldata = s.calldata ∧ t.jdest = s.jdest ∧
    t.memCapacity = s.memCapacity ∧ t.codeMax = s.codeMax ∧ t.stepBudget = s.stepBudget

/-- t is what raising fault k at pc0 = p leaves of s, as far as the spec says: the status, the fault record, and what is
fixed for the run. Of the stack, memory, ret and steps it says nothing (R272, R273, R274). -/
def State.FaultedFrom (s t : State) (k : FaultKind) (p : Nat) : Prop :=
  t.status = .haltedFault ∧ t.faultKind = k ∧ t.faultPc = p ∧ s.SameRun t

/-- The 181 byte values that are illegal as an opcode, as R85 lists them. -/
def illegalOpcode (n : Nat) : Bool :=
  decide (0x04 ≤ n ∧ n ≤ 0x52 ∨ 0x54 ≤ n ∧ n ≤ 0x55 ∨ n = 0x5A ∨ 0x5C ≤ n ∧ n ≤ 0x5F ∨ 0xA0 ≤ n ∧ n ≤ 0xF2 ∨
    0xF4 ≤ n ∧ n ≤ 0xFF)

/-- A completed run of an instruction: it did not end in a fault. -/
def State.NotFaulted (s : State) : Prop := s.status ≠ .haltedFault

end Sys2Proof.Machine
end

