-- ==== Sys2Proof/Certificates/Slice0/Obligations.lean ====
section
/-! DEFINITION. Statements about the machine for the provers. Each docstring says which rule of spec/ it formalises. An equation
`exec i s = .next {s with ...}` is the result, the completion and the whole frame at once: every element of the state that is
not named is unchanged. -/

open Sys2Proof Sys2Proof.Machine

/-! ### Encoding (spec/30_encoding.md) -/

/-- Every well-formed instruction, followed by any bytes, decodes to itself (R80, R81, R82). -/
def Obligations.EncodeThenDecode : Prop :=
  ∀ (i : Instr) (rest : List Byte), i.wellFormed = true → decode (i.encode ++ rest) = .instr i

/-- What the decoder reads at any place of any code is well-formed, and its encoding is exactly the bytes there, zero-padded past
the end of the code (R81, R82). -/
def Obligations.DecodeThenEncode : Prop :=
  ∀ (code : List Byte) (pc : Nat) (i : Instr), decodeAt code pc = .instr i →
    i.wellFormed = true ∧ pc < code.length ∧ i.encode = readBytes code pc i.length

/-- The opcode map has 75 rows and no two share an opcode byte or a mnemonic; and words written out from R81 and R84, one for each
family, decode to what they stand for. -/
def Obligations.OpcodeWordsDecode : Prop :=
  registry.length = 75 ∧ (registry.map OpRow.opcode).Nodup ∧ (registry.map OpRow.mnemonic).Nodup ∧
    decode [0x03] = .instr .sub ∧ decode [0x53] = .instr .mstore8 ∧ decode [0x57] = .instr .jumpi ∧
    decode [0xF3] = .instr .ret ∧ decode [0x61, 0x01, 0x02] = .instr (.push2 0x0102) ∧
    decode [0x62, 0xAB] = .instr (.push3 0xAB0000) ∧ decode [0x8F] = .instr .dup16 ∧ decode [0x90] = .instr .swap1 ∧
    decode [0x5F] = .invalidOpcode 0x5F ∧ decode [] = .syntheticStop

/-- R85: exactly the 181 byte values it lists are unregistered; at one of them, running, the step raises InvalidOpcode with fault_pc
the byte's offset; every other byte decodes to an instruction. -/
def Obligations.IllegalBytesRaiseInvalidOpcode : Prop :=
  ((List.range 256).filter illegalOpcode).length = 181 ∧
    ∀ s : State, s.status = .running → s.pc < s.code.length →
      (illegalOpcode (readByte s.code s.pc).toNat = true →
        ∃ t, step s = .next t ∧ s.FaultedFrom t .invalidOpcode s.pc) ∧
      (illegalOpcode (readByte s.code s.pc).toNat = false → ∃ i, decodeAt s.code s.pc = .instr i)

/-- The code and calldata read ports (R62, R63): a byte read past the end gives 0, and a word read is the big-endian Word of its 32
bytes, each read so. -/
def Obligations.BufferReadsZeroPadBigEndian : Prop :=
  ∀ (s : State) (i : Nat),
    (i < s.code.length → s.code[i]? = some (s.codeByte i)) ∧ (s.code.length ≤ i → s.codeByte i = 0) ∧
    (i < s.calldata.length → s.calldata[i]? = some (s.calldataByte i)) ∧
    (s.calldata.length ≤ i → s.calldataByte i = 0) ∧
    (∀ j, j < 32 → (s.codeWord i).toNat / 256 ^ (31 - j) % 256 = (s.codeByte (i + j)).toNat) ∧
    (∀ j, j < 32 → (s.calldataWord i).toNat / 256 ^ (31 - j) % 256 = (s.calldataByte (i + j)).toNat) ∧
    codePort (.readByte i) s = .byte (s.codeByte i) ∧ codePort (.readWord i) s = .word (s.codeWord i) ∧
    calldataPort (.readByte i) s = .byte (s.calldataByte i) ∧ calldataPort (.readWord i) s = .word (s.calldataWord i)

/-- The assembler writes each well-formed instruction as its encoding, in order, and refuses a PUSHn immediate of 256^n or more
(R88). -/
def Obligations.AssemblerWritesEncodings : Prop :=
  (∀ is : List Instr, (∀ i ∈ is, i.wellFormed = true) →
      assemble (is.map asmItemOf) = .ok (is.map Instr.encode).flatten) ∧
    ∀ r ∈ registry, r.width ≠ 0 → ∀ v : Nat, 256 ^ r.width ≤ v →
      assemble [.instr r.mnemonic.toList (some (.number v))] = .error .immediateTooLarge

/-! ### The step (spec/44_sequencer.md) -/

/-- A step runs the decoded instruction (R253): it is exec of the instruction at that state, then, for an instruction that
completed, the step counter, a normal halt winning over the budget, and StepBudgetExceeded at the pc after it (R254, R255, R273).
Nothing is said of the contents after that fault (R274). -/
def Obligations.StepRunsDecodedInstruction : Prop :=
  ∀ (s u : State) (i : Instr), s.status = .running → decodeAt s.code s.pc = .instr i → exec i s = .next u →
    (u.status = .haltedFault → step s = .next u) ∧
    (u.status = .haltedNormal → step s = .next { u with steps := u.steps + 1 }) ∧
    (u.status = .running → u.steps + 1 ≤ u.stepBudget → step s = .next { u with steps := u.steps + 1 }) ∧
    (u.status = .running → u.stepBudget < u.steps + 1 →
      ∃ t, step s = .next t ∧ u.FaultedFrom t .stepBudgetExceeded u.pc)

/-- At or past the end of code the step is the synthetic STOP: it halts normally with an empty return buffer, counts one step, and
does not advance pc (R252, R237, R254). -/
def Obligations.SyntheticStopHalts : Prop :=
  ∀ s : State, s.status = .running → s.code.length ≤ s.pc →
    step s = .next { s with status := .haltedNormal, ret := [], steps := s.steps + 1 }

/-- A running state always has a next state; one that has halted has none (R256); HALTED-NORMAL is reached only by STOP, the
synthetic STOP or RETURN. -/
def Obligations.RunningExactlyWhenStepping : Prop :=
  ∀ s : State,
    (s.status = .running → ∃ t, step s = .next t) ∧
    (s.status ≠ .running → step s = .fault .runEnded) ∧
    (∀ t, step s = .next t → t.status = .haltedNormal →
      decodeAt s.code s.pc = .syntheticStop ∨ decodeAt s.code s.pc = .instr .stop ∨ decodeAt s.code s.pc = .instr .ret)

/-- R260: every run ends, after at most STEP_BUDGET + 1 steps, with a result for the caller; stated for every constructed run and,
more generally, from every running state within its budget. -/
def Obligations.EveryRunEndsWithinBudget : Prop :=
  (∀ (cap cmax budget : Nat) (code calldata : List Byte), ∃ (k : Nat) (t : State), k ≤ budget + 1 ∧
      Host.Core.run Sys2Proof.core k (State.initial cap cmax budget code calldata) = .next t ∧ t.result ≠ none) ∧
    ∀ s : State, s.status = .running → s.steps ≤ s.stepBudget →
      ∃ (k : Nat) (t : State), 1 ≤ k ∧ k ≤ s.stepBudget + 1 - s.steps ∧
        Host.Core.run Sys2Proof.core k s = .next t ∧ t.status ≠ .running

/-- The trace hook (R258): an instruction that completes without a fault gives one record, with pc0 and the stack (bottom first)
and memory after it, and the mnemonic, STOP for the synthetic STOP, also where the step then takes StepBudgetExceeded (R255; the
model's reading, log entry 12); a state with no step gives none, and so does an instruction or a decode that faults. -/
def Obligations.TraceRecordAfterCompletion : Prop :=
  (∀ (s u : State) (i : Instr), s.status = .running → decodeAt s.code s.pc = .instr i → exec i s = .next u → u.NotFaulted →
      ∃ r, s.trace = some r ∧ r.opcodeName = i.mnemonic ∧ r.pcBeforeExecution = s.pc ∧
        r.stackSnapshot = u.stack.reverse ∧ r.memorySnapshot.length = u.mem.len ∧
        ∀ a, a < u.mem.len → r.memorySnapshot[a]? = some (u.mem.load8 a)) ∧
  (∀ s t : State, step s = .next t → t.NotFaulted →
      ∃ r, s.trace = some r ∧ r.pcBeforeExecution = s.pc ∧ r.stackSnapshot = t.stack.reverse ∧
        r.memorySnapshot.length = t.mem.len ∧ (∀ a, a < t.mem.len → r.memorySnapshot[a]? = some (t.mem.load8 a)) ∧
        (∀ i, decodeAt s.code s.pc = .instr i → r.opcodeName = i.mnemonic) ∧
        (decodeAt s.code s.pc = .syntheticStop → r.opcodeName = "STOP")) ∧
    (∀ s t : State, step s = .next t → t.status = .haltedFault → t.faultKind ≠ .stepBudgetExceeded → s.trace = none) ∧
    ∀ s : State, s.status ≠ .running → s.trace = none

/-! ### Reset and invariants (spec/70_reset_and_hazards.md, spec/10_state.md) -/

/-- Construction gives the state of R46 from the supplied code, calldata and parameters, and refuses a code buffer longer than
CODE_MAX (R290, D15). The fault record is not spoken of: R46 leaves it unspecified. -/
def Obligations.ConstructionGivesResetState : Prop :=
  ∀ (cap cmax budget : Nat) (code calldata : List Byte),
    (cmax < code.length → construct cap cmax budget code calldata = .refused .codeBufferTooLong) ∧
    (code.length ≤ cmax → ∃ s : State, construct cap cmax budget code calldata = .next s ∧
      s.stack = [] ∧ s.mem.len = 0 ∧ (∀ a, s.mem.load8 a = 0) ∧ s.code = code ∧ s.calldata = calldata ∧
      s.jdest = jumpDests code ∧ s.pc = 0 ∧ s.status = .running ∧ s.halted = false ∧ s.ret = [] ∧ s.steps = 0 ∧
      s.memCapacity = cap ∧ s.codeMax = cmax ∧ s.stepBudget = budget)

/-- State.reset meets the invariant. The parameters it is built with are the model's choice (log entries 6 and 7). -/
def Obligations.InvariantAtReset : Prop := State.reset.Inv ∧ State.reset.AtInstruction

/-- Every constructed run with a legal MEM_CAPACITY and a code buffer within CODE_MAX starts in the invariant, at an instruction. -/
def Obligations.InvariantAtConstruction : Prop :=
  ∀ (cap cmax budget : Nat) (code calldata : List Byte), 0 < cap → cap % 32 = 0 → code.length ≤ cmax →
    (State.initial cap cmax budget code calldata).Inv ∧ (State.initial cap cmax budget code calldata).AtInstruction

/-- Every step keeps the invariant: JDEST the scan of the code (R31), pc within CODE_LEN + 32 (R29), the return buffer empty while
running (R34), the memory list in the model's canonical form (log entry 10), and, unless the run has faulted (R274), the stack
within 1024 Words (R21), MLEN a multiple of 32 within MEM_CAPACITY (R24), and the step counter within its budget (R253, R255). -/
def Obligations.StepKeepsInvariant : Prop :=
  ∀ s t : State, s.Inv → step s = .next t → t.Inv

/-- Control never reaches the immediate bytes of a PUSH (R30, R87): a step from an instruction start of the linear decode leaves pc at
one. -/
def Obligations.StepKeepsInstructionStart : Prop :=
  ∀ s t : State, s.Inv → s.AtInstruction → step s = .next t → t.NotFaulted → t.AtInstruction

/-- No step writes the code, the calldata, JDEST or a parameter of the run (R26, R27, R31, R61, R72). -/
def Obligations.RunConstantsNeverChange : Prop :=
  ∀ s t : State, step s = .next t → s.SameRun t

/-! ### ALU and arithmetic instructions (spec/40_word_alu.md) -/

/-- R104: the ring laws of the ALU, in the rule's order. -/
def Obligations.AluRingLaws : Prop :=
  ∀ a b c : Word,
    alu .add a b = alu .add b a ∧ alu .add (alu .add a b) c = alu .add a (alu .add b c) ∧
    alu .mul a b = alu .mul b a ∧ alu .mul (alu .mul a b) c = alu .mul a (alu .mul b c) ∧
    alu .mul a (alu .add b c) = alu .add (alu .mul a b) (alu .mul a c) ∧
    alu .add a 0 = a ∧ alu .mul a 1 = a ∧ alu .sub a b = alu .add a (alu .sub 0 b) ∧ alu .sub a a = 0 ∧
    alu .add (alu .sub a b) b = a ∧ alu .mul (BitVec.allOnes 256) (BitVec.allOnes 256) = 1

/-- ADD, MUL, SUB (R105, R106, R107): with `a` the top and `b` below it, the result modulo 2^256 replaces both and pc moves by one;
with fewer than two Words they raise StackUnderflow. The premise L ≤ 1024 is the invariant's. -/
def Obligations.ArithmeticInstructions : Prop :=
  Instr.add.encode = [0x01] ∧ Instr.mul.encode = [0x02] ∧ Instr.sub.encode = [0x03] ∧
  ∀ s : State,
    (∀ (a b : Word) (S : List Word), s.stack = a :: b :: S → s.stack.length ≤ 1024 →
      ∃ x y z : Word,
        exec .add s = .next { s with stack := x :: S, pc := s.pc + 1 } ∧ x.toNat = (a.toNat + b.toNat) % 2 ^ 256 ∧
        exec .mul s = .next { s with stack := y :: S, pc := s.pc + 1 } ∧ y.toNat = a.toNat * b.toNat % 2 ^ 256 ∧
        exec .sub s = .next { s with stack := z :: S, pc := s.pc + 1 } ∧
          (z.toNat : Int) = ((a.toNat : Int) - (b.toNat : Int)) % 2 ^ 256) ∧
    (s.stack.length < 2 → ∀ i, i = .add ∨ i = .mul ∨ i = .sub →
      ∃ t, exec i s = .next t ∧ s.FaultedFrom t .stackUnderflow s.pc)

/-! ### Stack controller and stack instructions (spec/41_stack.md) -/

/-- The four commands of the stack controller on every stack, with their errors (R120, R121, R122, R123). -/
def Obligations.StackControllerCommands : Prop :=
  ∀ S : List Word,
    (∀ w, S.length = 1024 → stkUnit (.push w) S = (.err .stackOverflow, S)) ∧
    (∀ w, S.length < 1024 → ∃ S1, stkUnit (.push w) S = (.ok, S1) ∧ S1[0]? = some w ∧ ∀ j, S1[j + 1]? = S[j]?) ∧
    (S = [] → stkUnit .pop S = (.err .stackUnderflow, S)) ∧
    (S ≠ [] → ∃ w S1, stkUnit .pop S = (.okWord w, S1) ∧ S[0]? = some w ∧ ∀ j, S1[j]? = S[j + 1]?) ∧
    (∀ n, S.length ≤ n → stkUnit (.peek n) S = (.err .stackUnderflow, S)) ∧
    (∀ n, n < S.length → ∃ w, stkUnit (.peek n) S = (.okWord w, S) ∧ S[n]? = some w) ∧
    stkUnit (.swap 0) S = (.err .invalidStackIndex, S) ∧
    (∀ n, n ≠ 0 → S.length ≤ n → stkUnit (.swap n) S = (.err .stackUnderflow, S)) ∧
    (∀ n, n ≠ 0 → n < S.length → ∃ S1, stkUnit (.swap n) S = (.ok, S1) ∧ S1.length = S.length ∧
      S1[0]? = S[n]? ∧ S1[n]? = S[0]? ∧ ∀ j, j ≠ 0 → j ≠ n → S1[j]? = S[j]?)

/-- A command that fails leaves its unit's state unchanged, and fails only with the errors of its interface (R41, R42, R44). -/
def Obligations.FailedCommandsChangeNothing : Prop :=
  (∀ (c : StkCommand) (S S1 : List Word) (k : FaultKind), stkUnit c S = (.err k, S1) →
      S1 = S ∧ (k = .stackOverflow ∨ k = .stackUnderflow ∨ k = .invalidStackIndex)) ∧
    ∀ (cap : Nat) (c : MemCommand) (m m1 : Memory) (k : FaultKind), memUnit cap c m = (.err k, m1) →
      m1 = m ∧ (k = .invalidMemoryValue ∨ k = .memoryLimit)

/-- The LIFO law (R124): pushes within the depth, then as many pops, return the pushed Words in reverse order and leave the stack as it
was. -/
def Obligations.PushesThenPopsAreLifo : Prop :=
  ∀ (ws S : List Word), S.length + ws.length ≤ 1024 →
    stkRun (ws.map .push ++ List.replicate ws.length .pop) S =
      (List.replicate ws.length .ok ++ ws.reverse.map .okWord, S)

/-- PUSH1 to PUSH32 (R125, R126 to R157): the immediate is pushed and pc moves by 1 + n; on a full stack StackOverflow at pc0. -/
def Obligations.PushInstructions : Prop :=
  ∀ (i : Instr) (n : Nat) (imm : Word) (s : State), i.immediate = some (n, imm) →
    (s.stack.length < 1024 → exec i s = .next { s with stack := imm :: s.stack, pc := s.pc + 1 + n }) ∧
    (s.stack.length = 1024 → ∃ t, exec i s = .next t ∧ s.FaultedFrom t .stackOverflow s.pc)

/-- R125 read from the code: an opcode byte 0x5F + n, n = 1 to 32, is PUSHn, its immediate the big-endian integer of the n bytes after
it, bytes past the end of the code read as 0, which is what ReadCode(n) returns there. -/
def Obligations.PushReadsItsImmediateFromCode : Prop :=
  ∀ (s : State) (n : Nat), 1 ≤ n → n ≤ 32 → s.pc < s.code.length → (s.codeByte s.pc).toNat = 0x5F + n →
    ∃ (i : Instr) (imm : Word), decodeAt s.code s.pc = .instr i ∧ i.immediate = some (n, imm) ∧
      imm.toNat < 256 ^ n ∧
      (∀ j, j < n → imm.toNat / 256 ^ (n - 1 - j) % 256 = (s.codeByte (s.pc + 1 + j)).toNat) ∧
      (s.setPc (s.pc + 1)).readCode n = (imm, s.setPc (s.pc + 1 + n)) ∧
      (s.stack.length < 1024 → exec i s = .next { s with stack := imm :: s.stack, pc := s.pc + 1 + n }) ∧
      (s.stack.length = 1024 → ∃ t, exec i s = .next t ∧ s.FaultedFrom t .stackOverflow s.pc)

/-- DUP1 to DUP16 (R158): a copy of the n-th Word from the top is pushed; StackUnderflow when L < n; StackOverflow when L = 1024. -/
def Obligations.DupInstructions : Prop :=
  ∀ (i : Instr) (n : Nat) (s : State), i.dupNumber = some n →
    1 ≤ n ∧ n ≤ 16 ∧ i.encode = [BitVec.ofNat 8 (0x7F + n)] ∧
    (n ≤ s.stack.length → s.stack.length < 1024 →
      ∃ v, s.stack[n - 1]? = some v ∧ exec i s = .next { s with stack := v :: s.stack, pc := s.pc + 1 }) ∧
    (s.stack.length < n → ∃ t, exec i s = .next t ∧ s.FaultedFrom t .stackUnderflow s.pc) ∧
    (s.stack.length = 1024 → ∃ t, exec i s = .next t ∧ s.FaultedFrom t .stackOverflow s.pc)

/-- SWAP1 to SWAP16 (R175): top(0) and top(n) are exchanged and nothing else; StackUnderflow when L ≤ n; twice restores the stack. -/
def Obligations.SwapInstructions : Prop :=
  ∀ (i : Instr) (n : Nat) (s : State), i.swapNumber = some n →
    1 ≤ n ∧ n ≤ 16 ∧ i.encode = [BitVec.ofNat 8 (0x8F + n)] ∧
    (n < s.stack.length →
      ∃ S : List Word, exec i s = .next { s with stack := S, pc := s.pc + 1 } ∧ S.length = s.stack.length ∧
        S[0]? = s.stack[n]? ∧ S[n]? = s.stack[0]? ∧ (∀ j, j ≠ 0 → j ≠ n → S[j]? = s.stack[j]?) ∧
        exec i { s with stack := S, pc := s.pc + 1 } = .next { s with pc := s.pc + 2 }) ∧
    (s.stack.length ≤ n → ∃ t, exec i s = .next t ∧ s.FaultedFrom t .stackUnderflow s.pc)

/-! ### Memory commands and instructions (spec/20_memory.md, spec/42_memory_ops.md)

`max (MLEN / 32) ((k + 32) / 32) * 32` is NewLen(MLEN, k) of R52. A command or RETURN completes under the premise that its
access ends within the 2^256 bytes a Word can name (R51); AccessesPastTheWordRangeFail says what it does past them. -/

/-- MemStore8 (R55): the value is tested before growth, growth past the capacity is MemoryLimit, and otherwise the byte at off is v,
every other byte reads as before, and MLEN is NewLen(MLEN, off). -/
def Obligations.MemStore8Command : Prop :=
  ∀ (cap off v : Nat) (m : Memory), m.wf →
    (255 < v → memUnit cap (.store8 off v) m = (.err .invalidMemoryValue, m)) ∧
    (v ≤ 255 → cap < max (m.len / 32) ((off + 32) / 32) * 32 →
      memUnit cap (.store8 off v) m = (.err .memoryLimit, m)) ∧
    (v ≤ 255 → off < 2 ^ 256 → max (m.len / 32) ((off + 32) / 32) * 32 ≤ cap →
      ∃ m1, memUnit cap (.store8 off v) m = (.ok, m1) ∧ m1.wf ∧ m1.len = max (m.len / 32) ((off + 32) / 32) * 32 ∧
        (m1.load8 off).toNat = v ∧ ∀ a, a ≠ off → m1.load8 a = m.load8 a)

/-- MemLoad8 (R56) and MemWordCount (R59) never fail and never change memory; past MLEN a byte reads 0; a range of no bytes grows
nothing (R53, R57). -/
def Obligations.ReadsThatNeverGrow : Prop :=
  ∀ (cap off : Nat) (m : Memory),
    (∃ b, memUnit cap (.load8 off) m = (.okByte b, m) ∧ (m.len ≤ off → b = 0) ∧ (off < m.len → b = cellAt m.cells off)) ∧
    memUnit cap .wordCount m = (.okNat (m.len / 32), m) ∧
    memUnit cap (.loadRange off 0) m = (.okBytes [], m)

/-- MemLoadRange of n ≥ 1 bytes (R57): it grows memory to cover the range, returns the bytes, 0 past the old length, and changes no
byte; growth past the capacity is MemoryLimit. -/
def Obligations.MemLoadRangeCommand : Prop :=
  ∀ (cap off n : Nat) (m : Memory), m.wf →
    memUnit cap (.loadRange off 0) m = (.okBytes [], m) ∧
    (1 ≤ n → cap < max (m.len / 32) ((off + n + 31) / 32) * 32 →
      memUnit cap (.loadRange off n) m = (.err .memoryLimit, m)) ∧
    (1 ≤ n → off + n ≤ 2 ^ 256 → max (m.len / 32) ((off + n + 31) / 32) * 32 ≤ cap →
      ∃ bs m1, memUnit cap (.loadRange off n) m = (.okBytes bs, m1) ∧ bs.length = n ∧
        (∀ j, j < n → bs[j]? = some (m.load8 (off + j))) ∧ m1.wf ∧
        m1.len = max (m.len / 32) ((off + n + 31) / 32) * 32 ∧ ∀ a, m1.load8 a = m.load8 a)

/-- MemStoreWord (R58, R64): byte i of the big-endian form of w is stored at off + i, and nothing else changes but the length. -/
def Obligations.MemStoreWordCommand : Prop :=
  ∀ (cap off : Nat) (w : Word) (m : Memory), m.wf →
    (cap < max (m.len / 32) ((off + 63) / 32) * 32 → memUnit cap (.storeWord off w) m = (.err .memoryLimit, m)) ∧
    (off + 32 ≤ 2 ^ 256 → max (m.len / 32) ((off + 63) / 32) * 32 ≤ cap →
      ∃ m1, memUnit cap (.storeWord off w) m = (.ok, m1) ∧ m1.wf ∧ m1.len = max (m.len / 32) ((off + 63) / 32) * 32 ∧
        (∀ i, i < 32 → (m1.load8 (off + i)).toNat = w.toNat / 256 ^ (31 - i) % 256) ∧
        ∀ a, a < off ∨ off + 32 ≤ a → m1.load8 a = m.load8 a)

/-- MSTORE8 (R220; at the offset 2^256 - 1 on a capacity that takes it, see Mstore8AtTheLastOffset): with the offset on top and the value below it, the value's low 8 bits are stored at that offset at its full width,
every other byte reads as before, memory grows by R52, both Words are popped and nothing else changes; MemoryLimit past the capacity;
StackUnderflow with fewer than two Words. -/
def Obligations.Mstore8Instruction : Prop :=
  Instr.mstore8.encode = [0x53] ∧
  ∀ s : State, s.mem.wf →
    (∀ (off val : Word) (S : List Word), s.stack = off :: val :: S →
      (off ≠ BitVec.allOnes 256 → max (s.mem.len / 32) ((off.toNat + 32) / 32) * 32 ≤ s.memCapacity →
        ∃ m, exec .mstore8 s = .next { s with stack := S, mem := m, pc := s.pc + 1 } ∧ m.wf ∧
          m.len = max (s.mem.len / 32) ((off.toNat + 32) / 32) * 32 ∧
          (m.load8 off.toNat).toNat = val.toNat % 256 ∧ ∀ a, a ≠ off.toNat → m.load8 a = s.mem.load8 a) ∧
      (s.memCapacity < max (s.mem.len / 32) ((off.toNat + 32) / 32) * 32 →
        ∃ t, exec .mstore8 s = .next t ∧ s.FaultedFrom t .memoryLimit s.pc)) ∧
    (s.stack.length < 2 → ∃ t, exec .mstore8 s = .next t ∧ s.FaultedFrom t .stackUnderflow s.pc)

/-- MSIZE (R221): it pushes MLEN and changes no memory; where MLEN is 2^256 or more R8 gives zext_256 no value, the instruction still
completes, and the pushed Word is free (log entry 9), drawn by advancing the model's own counter. StackOverflow on a full stack. -/
def Obligations.MsizeInstruction : Prop :=
  Instr.msize.encode = [0x59] ∧
  ∀ s : State,
    (s.stack.length < 1024 →
      ∃ (w : Word) (d : Nat), exec .msize s = .next { s with stack := w :: s.stack, pc := s.pc + 1, freeDraws := d } ∧
        (32 * (s.mem.len / 32) < 2 ^ 256 → w.toNat = 32 * (s.mem.len / 32) ∧ d = s.freeDraws)) ∧
    (s.stack.length = 1024 → ∃ t, exec .msize s = .next t ∧ s.FaultedFrom t .stackOverflow s.pc)

/-- R51: an access whose highest byte lies past 2^256 - 1 fails with MemoryLimit and changes no memory, whatever MEM_CAPACITY is,
from the memory interface and from RETURN (log entry 18, where R68 would permit it). -/
def Obligations.AccessesPastTheWordRangeFail : Prop :=
  (∀ (cap off : Nat) (m : Memory),
      (∀ v, v ≤ 255 → 2 ^ 256 ≤ off → memUnit cap (.store8 off v) m = (.err .memoryLimit, m)) ∧
      (∀ n, 1 ≤ n → 2 ^ 256 < off + n → memUnit cap (.loadRange off n) m = (.err .memoryLimit, m)) ∧
      (∀ w, 2 ^ 256 < off + 32 → memUnit cap (.storeWord off w) m = (.err .memoryLimit, m))) ∧
    ∀ (s : State) (off len : Word) (S : List Word), s.stack = off :: len :: S → len ≠ 0 →
      2 ^ 256 < off.toNat + len.toNat → ∃ t, exec .ret s = .next t ∧ s.FaultedFrom t .memoryLimit s.pc

/-- MSTORE8 at the offset M = 2^256 - 1 completes where MEM_CAPACITY takes the byte, by the condition of R220. That is the model's
choice (log entry 19): a corner case of R220 has this offset raise MemoryLimit. -/
def Obligations.Mstore8AtTheLastOffset : Prop :=
  ∀ (s : State) (val : Word) (S : List Word), s.mem.wf → s.stack = BitVec.allOnes 256 :: val :: S →
    max (s.mem.len / 32) (2 ^ 256 / 32) * 32 ≤ s.memCapacity →
    ∃ m, exec .mstore8 s = .next { s with stack := S, mem := m, pc := s.pc + 1 } ∧ m.wf ∧
      m.len = max (s.mem.len / 32) (2 ^ 256 / 32) * 32 ∧ (m.load8 (2 ^ 256 - 1)).toNat = val.toNat % 256 ∧
      ∀ a, a ≠ 2 ^ 256 - 1 → m.load8 a = s.mem.load8 a

/-- Memory never shrinks during a run (R60, R24). Nothing is said of memory after a fault (R274). -/
def Obligations.MemoryNeverShrinks : Prop :=
  ∀ s t : State, s.mem.len % 32 = 0 → step s = .next t → t.NotFaulted → s.mem.len ≤ t.mem.len

/-- Only MSTORE8 and RETURN touch memory, and RETURN changes no byte of it: every byte reads as before (R50, R222). -/
def Obligations.OnlyMstore8AndReturnTouchMemory : Prop :=
  ∀ (i : Instr) (s t : State), exec i s = .next t → t.NotFaulted →
    (i ≠ .mstore8 → i ≠ .ret → t.mem = s.mem) ∧
    (i = .ret → s.mem.wf → ∀ a, t.mem.load8 a = s.mem.load8 a)

/-! ### Control transfer and halting (spec/43_control.md) -/

/-- JDEST holds exactly the offsets of the 0x5B bytes that are opcodes of the linear decode from offset 0, in rising order (R230). -/
def Obligations.JumpDestsAreOpcodeOffsets : Prop :=
  ∀ code : List Byte, (jumpDests code).Pairwise (· < ·) ∧
    ∀ t, t ∈ jumpDests code ↔ OpcodeOffset code t ∧ code[t]? = some 0x5B

/-- PC (R232): it pushes the offset of its own opcode byte. Where that is 2^256 or more R8 gives zext_256 no value and the Word is free
(log entry 9). StackOverflow on a full stack. -/
def Obligations.PcInstruction : Prop :=
  Instr.pc.encode = [0x58] ∧
  ∀ s : State,
    (s.stack.length < 1024 →
      ∃ (w : Word) (d : Nat), exec .pc s = .next { s with stack := w :: s.stack, pc := s.pc + 1, freeDraws := d } ∧
        (s.pc < 2 ^ 256 → w.toNat = s.pc ∧ d = s.freeDraws)) ∧
    (s.stack.length = 1024 → ∃ t, exec .pc s = .next t ∧ s.FaultedFrom t .stackOverflow s.pc)

/-- JUMP (R233, R231): to a member of JDEST, compared at full width; any other target is InvalidJumpDestination; an empty stack is
StackUnderflow. -/
def Obligations.JumpInstruction : Prop :=
  Instr.jump.encode = [0x56] ∧
  ∀ s : State,
    (∀ (t : Word) (S : List Word), s.stack = t :: S →
      (t.toNat ∈ s.jdest → exec .jump s = .next { s with stack := S, pc := t.toNat }) ∧
      (t.toNat ∉ s.jdest → ∃ u, exec .jump s = .next u ∧ s.FaultedFrom u .invalidJumpDestination s.pc)) ∧
    (s.stack = [] → ∃ u, exec .jump s = .next u ∧ s.FaultedFrom u .stackUnderflow s.pc)

/-- JUMPI (R234): with the target on top and the condition below it, both are popped; a condition of 0 falls through and the target is
not checked; any other takes the jump, checked as JUMP's; fewer than two Words is StackUnderflow whatever the target. -/
def Obligations.JumpiInstruction : Prop :=
  Instr.jumpi.encode = [0x57] ∧
  ∀ s : State,
    (∀ (t c : Word) (S : List Word), s.stack = t :: c :: S →
      (c = 0 → exec .jumpi s = .next { s with stack := S, pc := s.pc + 1 }) ∧
      (c ≠ 0 → t.toNat ∈ s.jdest → exec .jumpi s = .next { s with stack := S, pc := t.toNat }) ∧
      (c ≠ 0 → t.toNat ∉ s.jdest → ∃ u, exec .jumpi s = .next u ∧ s.FaultedFrom u .invalidJumpDestination s.pc)) ∧
    (s.stack.length < 2 → ∃ u, exec .jumpi s = .next u ∧ s.FaultedFrom u .stackUnderflow s.pc)

/-- JUMPDEST changes nothing but pc (R235); STOP halts normally with an empty return buffer, and the synthetic STOP does so without
moving pc (R237, R252). -/
def Obligations.JumpdestAndStopInstructions : Prop :=
  Instr.jumpdest.encode = [0x5B] ∧ Instr.stop.encode = [0x00] ∧
  ∀ s : State, exec .jumpdest s = .next { s with pc := s.pc + 1 } ∧
    exec .stop s = .next { s with pc := s.pc + 1, status := .haltedNormal, ret := [] } ∧
    execSyntheticStop s = .next { s with status := .haltedNormal, ret := [] }

/-- RETURN (R236): with the offset on top and the length below it, the return buffer becomes that range of memory, bytes past MLEN 0,
memory grows by R52 and no byte of it changes, both Words are popped, and the run halts normally; a length of 0 grows nothing whatever
the offset; MemoryLimit past the capacity; StackUnderflow with fewer than two Words. -/
def Obligations.ReturnInstruction : Prop :=
  Instr.ret.encode = [0xF3] ∧
  ∀ s : State, s.mem.wf →
    (∀ (off len : Word) (S : List Word), s.stack = off :: len :: S →
      (len = 0 → exec .ret s = .next { s with stack := S, ret := [], status := .haltedNormal, pc := s.pc + 1 }) ∧
      (len ≠ 0 → off.toNat + len.toNat ≤ 2 ^ 256 →
        max (s.mem.len / 32) ((off.toNat + len.toNat + 31) / 32) * 32 ≤ s.memCapacity →
        ∃ r m, exec .ret s =
            .next { s with stack := S, mem := m, ret := r, status := .haltedNormal, pc := s.pc + 1 } ∧
          r.length = len.toNat ∧ (∀ j, j < len.toNat → r[j]? = some (s.mem.load8 (off.toNat + j))) ∧
          m.len = max (s.mem.len / 32) ((off.toNat + len.toNat + 31) / 32) * 32 ∧ m.wf ∧
          ∀ a, m.load8 a = s.mem.load8 a) ∧
      (len ≠ 0 → s.memCapacity < max (s.mem.len / 32) ((off.toNat + len.toNat + 31) / 32) * 32 →
        ∃ t, exec .ret s = .next t ∧ s.FaultedFrom t .memoryLimit s.pc)) ∧
    (s.stack.length < 2 → ∃ t, exec .ret s = .next t ∧ s.FaultedFrom t .stackUnderflow s.pc)

/-- A taken jump, a JUMP or a JUMPI whose condition is not 0, lands on a JUMPDEST below CODE_LEN, which executes next as a no-op
(R233, R234, R31). -/
def Obligations.TakenJumpLandsOnJumpdest : Prop :=
  ∀ s t : State, s.Inv →
    (exec .jump s = .next t ∨
      exec .jumpi s = .next t ∧ ∃ (target c : Word) (S : List Word), s.stack = target :: c :: S ∧ c ≠ 0) →
    t.NotFaulted →
    t.pc < t.code.length ∧ decodeAt t.code t.pc = .instr .jumpdest ∧
      exec .jumpdest t = .next { t with pc := t.pc + 1 }

/-- Every instruction but JUMP and JUMPI leaves pc at pc0 + 1 + its immediate bytes; JUMP leaves it at a member of JDEST, JUMPI at one
or at pc0 + 1 (R28, R238). -/
def Obligations.PcAdvancesOrJumps : Prop :=
  ∀ (i : Instr) (s t : State), exec i s = .next t → t.NotFaulted →
    (i ≠ .jump → i ≠ .jumpi → t.pc = s.pc + i.length) ∧
    (i = .jump → t.pc ∈ s.jdest) ∧ (i = .jumpi → t.pc = s.pc + 1 ∨ t.pc ∈ s.jdest)

/-- The frame of the status elements (R32 to R36): an instruction that completes writes neither the step counter nor the fault record,
only STOP and RETURN write the status and the return buffer, and JUMPDEST and STOP leave the stack alone (R23). -/
def Obligations.OnlyHaltingWritesStatus : Prop :=
  ∀ (i : Instr) (s t : State), exec i s = .next t → t.NotFaulted →
    t.steps = s.steps ∧ t.faultKind = s.faultKind ∧ t.faultPc = s.faultPc ∧ s.SameRun t ∧
    (i ≠ .stop → i ≠ .ret → t.status = s.status ∧ t.ret = s.ret) ∧
    (i = .stop ∨ i = .ret → t.status = .haltedNormal) ∧
    (i = .stop ∨ i = .jumpdest → t.stack = s.stack)

/-! ### Faults (spec/60_exceptions.md) -/

/-- Which instruction raises which fault (the "raised by" column of R270), always at pc0 (R273). InvalidStackIndex,
InvalidMemoryValue, InvalidOpcode and StepBudgetExceeded are raised by no instruction. The premise L ≤ 1024 is the invariant's. -/
def Obligations.InstructionFaultTable : Prop :=
  ∀ (i : Instr) (s t : State), s.NotFaulted → s.stack.length ≤ 1024 → exec i s = .next t → t.status = .haltedFault →
    t.faultPc = s.pc ∧ s.SameRun t ∧
    ((t.faultKind = .stackOverflow ∧ s.stack.length = 1024 ∧
        (i.immediate ≠ none ∨ i.dupNumber ≠ none ∨ i = .pc ∨ i = .msize)) ∨
      (t.faultKind = .stackUnderflow ∧
        (i.dupNumber ≠ none ∨ i.swapNumber ≠ none ∨
          i ∈ [.add, .mul, .sub, .mstore8, .jump, .jumpi, .ret])) ∨
      (t.faultKind = .invalidJumpDestination ∧ (i = .jump ∨ i = .jumpi)) ∨
      (t.faultKind = .memoryLimit ∧ (i = .mstore8 ∨ i = .ret)))

/-- R273: fault_pc is pc0 for every fault of decode or an instruction, and for StepBudgetExceeded the pc after the last executed
instruction. InvalidStackIndex and InvalidMemoryValue end no run (R270). -/
def Obligations.FaultPcOfEveryFault : Prop :=
  ∀ s t : State, step s = .next t → t.status = .haltedFault →
    (t.faultKind ≠ .stepBudgetExceeded → t.faultPc = s.pc) ∧
    (t.faultKind = .stepBudgetExceeded →
      ∃ i u, decodeAt s.code s.pc = .instr i ∧ exec i s = .next u ∧ u.status = .running ∧ t.faultPc = u.pc) ∧
    t.faultKind ≠ .invalidStackIndex ∧ t.faultKind ≠ .invalidMemoryValue
end

