-- ==== Sys2Proof/Laws/Alu.lean ====
section
/-! SUPPORT. The ALU's operations are the Word operations (spec/40_word_alu.md R100, R101). -/

namespace Sys2Proof.Machine

theorem alu_add (a b : Word) : alu .add a b = a + b := by
  simp [alu, BitVec.ofInt_add, BitVec.ofInt_natCast]

theorem alu_mul (a b : Word) : alu .mul a b = a * b := by
  simp [alu, BitVec.ofInt_mul, BitVec.ofInt_natCast]

theorem alu_sub (a b : Word) : alu .sub a b = a - b := by
  simp [alu, Int.sub_eq_add_neg, BitVec.ofInt_add, BitVec.ofInt_neg, BitVec.ofInt_natCast, BitVec.sub_eq_add_neg]

end Sys2Proof.Machine
end

