-- ==== Sys2Proof/Laws/Bytes.lean ====
section
/-! SUPPORT. Byte order: the big-endian integer of bytes and the bytes of an integer are inverse (spec/00_scope.md R8). -/

namespace Sys2Proof

theorem be_nil : be [] = 0 := rfl

theorem be_foldl (bs : List Byte) (acc : Nat) :
    bs.foldl (fun a b => a * 256 + b.toNat) acc = acc * 256 ^ bs.length + be bs := by
  induction bs generalizing acc with
  | nil => simp [be]
  | cons b rest ih =>
    simp only [List.foldl_cons, List.length_cons, be]
    rw [ih, ih (0 * 256 + b.toNat)]
    ring

/-- The first byte is the most significant. -/
theorem be_cons (b : Byte) (bs : List Byte) : be (b :: bs) = b.toNat * 256 ^ bs.length + be bs := by
  have h := be_foldl bs (0 * 256 + b.toNat)
  simpa [be] using h

theorem be_lt (bs : List Byte) : be bs < 256 ^ bs.length := by
  induction bs with
  | nil => simp [be]
  | cons b rest ih =>
    rw [be_cons, List.length_cons, Nat.pow_succ]
    have hb : b.toNat ≤ 255 := by have := b.isLt; omega
    have := Nat.mul_le_mul_right (256 ^ rest.length) hb
    omega

theorem beBytes_zero (w : Word) : beBytes 0 w = [] := rfl

theorem beBytes_succ (n : Nat) (w : Word) :
    beBytes (n + 1) w = BitVec.ofNat 8 (w.toNat / 256 ^ n) :: beBytes n w := by
  simp only [beBytes, List.range_succ_eq_map, List.map_cons, List.map_map]
  refine List.cons_eq_cons.2 ⟨by simp, List.map_congr_left fun j _ => ?_⟩
  simp only [Function.comp, Nat.succ_eq_add_one]
  rw [show n + 1 - 1 - (j + 1) = n - 1 - j by omega]

@[simp] theorem length_beBytes (n : Nat) (w : Word) : (beBytes n w).length = n := by simp [beBytes]

/-- Reading back the n low bytes of a Word gives it modulo 256^n. -/
theorem be_beBytes (n : Nat) (w : Word) : be (beBytes n w) = w.toNat % 256 ^ n := by
  induction n with
  | zero => simp [beBytes, be, Nat.mod_one]
  | succ n ih =>
    rw [beBytes_succ, be_cons, ih, length_beBytes, BitVec.toNat_ofNat, show (2 : Nat) ^ 8 = 256 from rfl,
      Nat.mod_pow_succ (b := 256)]
    ring

theorem be_beBytes_of_lt {n : Nat} {w : Word} (h : w.toNat < 256 ^ n) : be (beBytes n w) = w.toNat := by
  rw [be_beBytes, Nat.mod_eq_of_lt h]

theorem pow_256_32 : (256 : Nat) ^ 32 = 2 ^ 256 := by decide

/-- At most 32 bytes give a value that a Word holds unreduced. -/
theorem be_lt_word {bs : List Byte} (h : bs.length ≤ 32) : be bs < 2 ^ 256 := by
  rw [← pow_256_32]
  exact Nat.lt_of_lt_of_le (be_lt bs) (Nat.pow_le_pow_right (by decide) h)

theorem toNat_word_be {bs : List Byte} (h : bs.length ≤ 32) : (BitVec.ofNat 256 (be bs)).toNat = be bs := by
  rw [BitVec.toNat_ofNat, Nat.mod_eq_of_lt (be_lt_word h)]

/-- Writing out the value of at most 32 bytes gives the bytes. -/
theorem beBytes_be {bs : List Byte} (h : bs.length ≤ 32) : beBytes bs.length (BitVec.ofNat 256 (be bs)) = bs := by
  have key : ∀ (ds : List Byte) (w : Word), w.toNat % 256 ^ ds.length = be ds → beBytes ds.length w = ds := by
    intro ds
    induction ds with
    | nil => intro w _; rfl
    | cons b rest ih =>
      intro w hw
      rw [List.length_cons, Nat.mod_pow_succ, be_cons] at hw
      have h1 := be_lt rest
      have h2 : w.toNat % 256 ^ rest.length < 256 ^ rest.length := Nat.mod_lt _ (by positivity)
      have h3 : w.toNat / 256 ^ rest.length % 256 = b.toNat := by
        have := congrArg (· / 256 ^ rest.length) hw
        simpa [Nat.add_mul_div_left, Nat.add_mul_div_right, Nat.div_eq_of_lt h1, Nat.div_eq_of_lt h2,
          Nat.add_comm (b.toNat * _)] using this
      have h4 : w.toNat % 256 ^ rest.length = be rest := by rw [h3] at hw; linarith
      rw [List.length_cons, beBytes_succ, ih w h4]
      congr 1
      apply BitVec.eq_of_toNat_eq
      rw [BitVec.toNat_ofNat]
      exact h3
  exact key bs _ (by rw [toNat_word_be h]; exact Nat.mod_eq_of_lt (be_lt bs))

/-! ### Reads of a buffer -/

@[simp] theorem length_readBytes (buf : List Byte) (i n : Nat) : (readBytes buf i n).length = n := by simp [readBytes]

theorem readBytes_get {buf : List Byte} {i n j : Nat} (h : j < n) :
    (readBytes buf i n)[j]? = some (readByte buf (i + j)) := by
  simp [readBytes, List.getElem?_range h]

theorem readByte_of_lt {buf : List Byte} {i : Nat} (h : i < buf.length) : readByte buf i = buf[i] := by
  simp [readByte, List.getElem?_eq_getElem h]

/-- Zero-padding past the end (R62). -/
theorem readByte_past {buf : List Byte} {i : Nat} (h : buf.length ≤ i) : readByte buf i = 0 := by
  simp [readByte, List.getElem?_eq_none h]

theorem readBytes_succ (buf : List Byte) (i n : Nat) :
    readBytes buf i (n + 1) = readByte buf i :: readBytes buf (i + 1) n := by
  simp only [readBytes, List.range_succ_eq_map, List.map_cons, List.map_map]
  refine List.cons_eq_cons.2 ⟨by simp, List.map_congr_left fun j _ => ?_⟩
  simp only [Function.comp, Nat.succ_eq_add_one]
  rw [show i + (j + 1) = i + 1 + j by omega]

/-- The bytes laid at an offset are read back there. -/
theorem readBytes_append (pre bs rest : List Byte) :
    readBytes (pre ++ bs ++ rest) pre.length bs.length = bs := by
  apply List.ext_getElem?
  intro j
  by_cases h : j < bs.length
  · rw [readBytes_get h, readByte_of_lt (by simp; omega), List.getElem?_eq_getElem h]
    congr 1
    rw [List.getElem_append_left (by simp; omega), List.getElem_append_right (by omega)]
    simp
  · rw [List.getElem?_eq_none (by simp; omega), List.getElem?_eq_none (by omega)]

theorem readBE_lt {buf : List Byte} {i n : Nat} (h : n ≤ 32) : readBE buf i n < 2 ^ 256 :=
  be_lt_word (by simpa using h)

/-- Byte j of a big-endian integer, counted from the most significant. -/
theorem be_digit (bs : List Byte) (j : Nat) (h : j < bs.length) : be bs / 256 ^ (bs.length - 1 - j) % 256 = (bs[j]).toNat := by
  induction bs generalizing j with
  | nil => simp at h
  | cons b rest ih =>
    rw [be_cons]
    have h1 := be_lt rest
    cases j with
    | zero =>
      simp only [List.length_cons, List.getElem_cons_zero]
      rw [show rest.length + 1 - 1 - 0 = rest.length by omega, Nat.add_comm, Nat.add_mul_div_right _ _ (by positivity), Nat.div_eq_of_lt h1]
      have := b.isLt; omega
    | succ j =>
      have hj : j < rest.length := by simpa using h
      simp only [List.length_cons, List.getElem_cons_succ]
      rw [show rest.length + 1 - 1 - (j+1) = rest.length - 1 - j by omega, ← ih j hj]
      have : b.toNat * 256 ^ rest.length = (b.toNat * 256 ^ j * 256) * 256 ^ (rest.length - 1 - j) := by
        rw [mul_assoc, mul_assoc]; congr 1
        rw [show 256 ^ j * (256 * 256 ^ (rest.length - 1 - j)) = 256 ^ (j + 1 + (rest.length - 1 - j)) by ring]
        congr 1; omega
      rw [this, Nat.add_comm, Nat.add_mul_div_right _ _ (by positivity)]
      omega

/-- Byte j of the integer read at an offset (R63, R250). -/
theorem readBE_digit (buf : List Byte) (i n j : Nat) (h : j < n) : readBE buf i n / 256 ^ (n - 1 - j) % 256 = (readByte buf (i+j)).toNat := by
  have := be_digit (readBytes buf i n) j (by simpa using h)
  have e := readBytes_get (buf := buf) (i := i) h
  rw [List.getElem?_eq_getElem (by simpa using h)] at e
  rw [Option.some.inj e] at this
  simpa [readBE] using this

end Sys2Proof
end

