-- ==== Sys2Proof/Laws/PerInstr.lean ====
section
/-! SUPPORT. For every instruction: the registry's row of its opcode byte (spec/30_encoding.md R84) gives back its mnemonic, its
width and, from its immediate, the instruction itself. One lemma per constructor. -/

namespace Sys2Proof.Laws.RegistryRow

open Sys2Proof

/-- The value of the immediate, 0 where there is none. -/
def immValue (i : Instr) : Word :=
  match i.immediate with
  | some (_, v) => v
  | none => 0

/-- The registry's row of i's opcode byte stands for i. -/
def Statement (i : Instr) : Prop :=
  ∃ r, lookupOpcode i.opcode = some r ∧ r.opcode = i.opcode ∧ r.mnemonic = i.mnemonic ∧ 1 + r.width = i.length ∧
    r.make (immValue i) = i ∧ ∀ v : Word, (r.make v).opcode = i.opcode

theorem stop : Statement .stop := ⟨_, rfl, rfl, rfl, rfl, rfl, fun _ => rfl⟩

theorem add : Statement .add := ⟨_, rfl, rfl, rfl, rfl, rfl, fun _ => rfl⟩

theorem mul : Statement .mul := ⟨_, rfl, rfl, rfl, rfl, rfl, fun _ => rfl⟩

theorem sub : Statement .sub := ⟨_, rfl, rfl, rfl, rfl, rfl, fun _ => rfl⟩

theorem mstore8 : Statement .mstore8 := ⟨_, rfl, rfl, rfl, rfl, rfl, fun _ => rfl⟩

theorem jump : Statement .jump := ⟨_, rfl, rfl, rfl, rfl, rfl, fun _ => rfl⟩

theorem jumpi : Statement .jumpi := ⟨_, rfl, rfl, rfl, rfl, rfl, fun _ => rfl⟩

theorem pc : Statement .pc := ⟨_, rfl, rfl, rfl, rfl, rfl, fun _ => rfl⟩

theorem msize : Statement .msize := ⟨_, rfl, rfl, rfl, rfl, rfl, fun _ => rfl⟩

theorem jumpdest : Statement .jumpdest := ⟨_, rfl, rfl, rfl, rfl, rfl, fun _ => rfl⟩

theorem push1 (imm : Word) : Statement (.push1 imm) := ⟨_, rfl, rfl, rfl, rfl, rfl, fun _ => rfl⟩

theorem push2 (imm : Word) : Statement (.push2 imm) := ⟨_, rfl, rfl, rfl, rfl, rfl, fun _ => rfl⟩

theorem push3 (imm : Word) : Statement (.push3 imm) := ⟨_, rfl, rfl, rfl, rfl, rfl, fun _ => rfl⟩

theorem push4 (imm : Word) : Statement (.push4 imm) := ⟨_, rfl, rfl, rfl, rfl, rfl, fun _ => rfl⟩

theorem push5 (imm : Word) : Statement (.push5 imm) := ⟨_, rfl, rfl, rfl, rfl, rfl, fun _ => rfl⟩

theorem push6 (imm : Word) : Statement (.push6 imm) := ⟨_, rfl, rfl, rfl, rfl, rfl, fun _ => rfl⟩

theorem push7 (imm : Word) : Statement (.push7 imm) := ⟨_, rfl, rfl, rfl, rfl, rfl, fun _ => rfl⟩

theorem push8 (imm : Word) : Statement (.push8 imm) := ⟨_, rfl, rfl, rfl, rfl, rfl, fun _ => rfl⟩

theorem push9 (imm : Word) : Statement (.push9 imm) := ⟨_, rfl, rfl, rfl, rfl, rfl, fun _ => rfl⟩

theorem push10 (imm : Word) : Statement (.push10 imm) := ⟨_, rfl, rfl, rfl, rfl, rfl, fun _ => rfl⟩

theorem push11 (imm : Word) : Statement (.push11 imm) := ⟨_, rfl, rfl, rfl, rfl, rfl, fun _ => rfl⟩

theorem push12 (imm : Word) : Statement (.push12 imm) := ⟨_, rfl, rfl, rfl, rfl, rfl, fun _ => rfl⟩

theorem push13 (imm : Word) : Statement (.push13 imm) := ⟨_, rfl, rfl, rfl, rfl, rfl, fun _ => rfl⟩

theorem push14 (imm : Word) : Statement (.push14 imm) := ⟨_, rfl, rfl, rfl, rfl, rfl, fun _ => rfl⟩

theorem push15 (imm : Word) : Statement (.push15 imm) := ⟨_, rfl, rfl, rfl, rfl, rfl, fun _ => rfl⟩

theorem push16 (imm : Word) : Statement (.push16 imm) := ⟨_, rfl, rfl, rfl, rfl, rfl, fun _ => rfl⟩

theorem push17 (imm : Word) : Statement (.push17 imm) := ⟨_, rfl, rfl, rfl, rfl, rfl, fun _ => rfl⟩

theorem push18 (imm : Word) : Statement (.push18 imm) := ⟨_, rfl, rfl, rfl, rfl, rfl, fun _ => rfl⟩

theorem push19 (imm : Word) : Statement (.push19 imm) := ⟨_, rfl, rfl, rfl, rfl, rfl, fun _ => rfl⟩

theorem push20 (imm : Word) : Statement (.push20 imm) := ⟨_, rfl, rfl, rfl, rfl, rfl, fun _ => rfl⟩

theorem push21 (imm : Word) : Statement (.push21 imm) := ⟨_, rfl, rfl, rfl, rfl, rfl, fun _ => rfl⟩

theorem push22 (imm : Word) : Statement (.push22 imm) := ⟨_, rfl, rfl, rfl, rfl, rfl, fun _ => rfl⟩

theorem push23 (imm : Word) : Statement (.push23 imm) := ⟨_, rfl, rfl, rfl, rfl, rfl, fun _ => rfl⟩

theorem push24 (imm : Word) : Statement (.push24 imm) := ⟨_, rfl, rfl, rfl, rfl, rfl, fun _ => rfl⟩

theorem push25 (imm : Word) : Statement (.push25 imm) := ⟨_, rfl, rfl, rfl, rfl, rfl, fun _ => rfl⟩

theorem push26 (imm : Word) : Statement (.push26 imm) := ⟨_, rfl, rfl, rfl, rfl, rfl, fun _ => rfl⟩

theorem push27 (imm : Word) : Statement (.push27 imm) := ⟨_, rfl, rfl, rfl, rfl, rfl, fun _ => rfl⟩

theorem push28 (imm : Word) : Statement (.push28 imm) := ⟨_, rfl, rfl, rfl, rfl, rfl, fun _ => rfl⟩

theorem push29 (imm : Word) : Statement (.push29 imm) := ⟨_, rfl, rfl, rfl, rfl, rfl, fun _ => rfl⟩

theorem push30 (imm : Word) : Statement (.push30 imm) := ⟨_, rfl, rfl, rfl, rfl, rfl, fun _ => rfl⟩

theorem push31 (imm : Word) : Statement (.push31 imm) := ⟨_, rfl, rfl, rfl, rfl, rfl, fun _ => rfl⟩

theorem push32 (imm : Word) : Statement (.push32 imm) := ⟨_, rfl, rfl, rfl, rfl, rfl, fun _ => rfl⟩

theorem dup1 : Statement .dup1 := ⟨_, rfl, rfl, rfl, rfl, rfl, fun _ => rfl⟩

theorem dup2 : Statement .dup2 := ⟨_, rfl, rfl, rfl, rfl, rfl, fun _ => rfl⟩

theorem dup3 : Statement .dup3 := ⟨_, rfl, rfl, rfl, rfl, rfl, fun _ => rfl⟩

theorem dup4 : Statement .dup4 := ⟨_, rfl, rfl, rfl, rfl, rfl, fun _ => rfl⟩

theorem dup5 : Statement .dup5 := ⟨_, rfl, rfl, rfl, rfl, rfl, fun _ => rfl⟩

theorem dup6 : Statement .dup6 := ⟨_, rfl, rfl, rfl, rfl, rfl, fun _ => rfl⟩

theorem dup7 : Statement .dup7 := ⟨_, rfl, rfl, rfl, rfl, rfl, fun _ => rfl⟩

theorem dup8 : Statement .dup8 := ⟨_, rfl, rfl, rfl, rfl, rfl, fun _ => rfl⟩

theorem dup9 : Statement .dup9 := ⟨_, rfl, rfl, rfl, rfl, rfl, fun _ => rfl⟩

theorem dup10 : Statement .dup10 := ⟨_, rfl, rfl, rfl, rfl, rfl, fun _ => rfl⟩

theorem dup11 : Statement .dup11 := ⟨_, rfl, rfl, rfl, rfl, rfl, fun _ => rfl⟩

theorem dup12 : Statement .dup12 := ⟨_, rfl, rfl, rfl, rfl, rfl, fun _ => rfl⟩

theorem dup13 : Statement .dup13 := ⟨_, rfl, rfl, rfl, rfl, rfl, fun _ => rfl⟩

theorem dup14 : Statement .dup14 := ⟨_, rfl, rfl, rfl, rfl, rfl, fun _ => rfl⟩

theorem dup15 : Statement .dup15 := ⟨_, rfl, rfl, rfl, rfl, rfl, fun _ => rfl⟩

theorem dup16 : Statement .dup16 := ⟨_, rfl, rfl, rfl, rfl, rfl, fun _ => rfl⟩

theorem swap1 : Statement .swap1 := ⟨_, rfl, rfl, rfl, rfl, rfl, fun _ => rfl⟩

theorem swap2 : Statement .swap2 := ⟨_, rfl, rfl, rfl, rfl, rfl, fun _ => rfl⟩

theorem swap3 : Statement .swap3 := ⟨_, rfl, rfl, rfl, rfl, rfl, fun _ => rfl⟩

theorem swap4 : Statement .swap4 := ⟨_, rfl, rfl, rfl, rfl, rfl, fun _ => rfl⟩

theorem swap5 : Statement .swap5 := ⟨_, rfl, rfl, rfl, rfl, rfl, fun _ => rfl⟩

theorem swap6 : Statement .swap6 := ⟨_, rfl, rfl, rfl, rfl, rfl, fun _ => rfl⟩

theorem swap7 : Statement .swap7 := ⟨_, rfl, rfl, rfl, rfl, rfl, fun _ => rfl⟩

theorem swap8 : Statement .swap8 := ⟨_, rfl, rfl, rfl, rfl, rfl, fun _ => rfl⟩

theorem swap9 : Statement .swap9 := ⟨_, rfl, rfl, rfl, rfl, rfl, fun _ => rfl⟩

theorem swap10 : Statement .swap10 := ⟨_, rfl, rfl, rfl, rfl, rfl, fun _ => rfl⟩

theorem swap11 : Statement .swap11 := ⟨_, rfl, rfl, rfl, rfl, rfl, fun _ => rfl⟩

theorem swap12 : Statement .swap12 := ⟨_, rfl, rfl, rfl, rfl, rfl, fun _ => rfl⟩

theorem swap13 : Statement .swap13 := ⟨_, rfl, rfl, rfl, rfl, rfl, fun _ => rfl⟩

theorem swap14 : Statement .swap14 := ⟨_, rfl, rfl, rfl, rfl, rfl, fun _ => rfl⟩

theorem swap15 : Statement .swap15 := ⟨_, rfl, rfl, rfl, rfl, rfl, fun _ => rfl⟩

theorem swap16 : Statement .swap16 := ⟨_, rfl, rfl, rfl, rfl, rfl, fun _ => rfl⟩

theorem ret : Statement .ret := ⟨_, rfl, rfl, rfl, rfl, rfl, fun _ => rfl⟩

/-- The statement for every instruction. -/
theorem all (i : Instr) : Statement i := by
  cases i with
  | stop => exact stop
  | add => exact add
  | mul => exact mul
  | sub => exact sub
  | mstore8 => exact mstore8
  | jump => exact jump
  | jumpi => exact jumpi
  | pc => exact pc
  | msize => exact msize
  | jumpdest => exact jumpdest
  | push1 imm => exact push1 imm
  | push2 imm => exact push2 imm
  | push3 imm => exact push3 imm
  | push4 imm => exact push4 imm
  | push5 imm => exact push5 imm
  | push6 imm => exact push6 imm
  | push7 imm => exact push7 imm
  | push8 imm => exact push8 imm
  | push9 imm => exact push9 imm
  | push10 imm => exact push10 imm
  | push11 imm => exact push11 imm
  | push12 imm => exact push12 imm
  | push13 imm => exact push13 imm
  | push14 imm => exact push14 imm
  | push15 imm => exact push15 imm
  | push16 imm => exact push16 imm
  | push17 imm => exact push17 imm
  | push18 imm => exact push18 imm
  | push19 imm => exact push19 imm
  | push20 imm => exact push20 imm
  | push21 imm => exact push21 imm
  | push22 imm => exact push22 imm
  | push23 imm => exact push23 imm
  | push24 imm => exact push24 imm
  | push25 imm => exact push25 imm
  | push26 imm => exact push26 imm
  | push27 imm => exact push27 imm
  | push28 imm => exact push28 imm
  | push29 imm => exact push29 imm
  | push30 imm => exact push30 imm
  | push31 imm => exact push31 imm
  | push32 imm => exact push32 imm
  | dup1 => exact dup1
  | dup2 => exact dup2
  | dup3 => exact dup3
  | dup4 => exact dup4
  | dup5 => exact dup5
  | dup6 => exact dup6
  | dup7 => exact dup7
  | dup8 => exact dup8
  | dup9 => exact dup9
  | dup10 => exact dup10
  | dup11 => exact dup11
  | dup12 => exact dup12
  | dup13 => exact dup13
  | dup14 => exact dup14
  | dup15 => exact dup15
  | dup16 => exact dup16
  | swap1 => exact swap1
  | swap2 => exact swap2
  | swap3 => exact swap3
  | swap4 => exact swap4
  | swap5 => exact swap5
  | swap6 => exact swap6
  | swap7 => exact swap7
  | swap8 => exact swap8
  | swap9 => exact swap9
  | swap10 => exact swap10
  | swap11 => exact swap11
  | swap12 => exact swap12
  | swap13 => exact swap13
  | swap14 => exact swap14
  | swap15 => exact swap15
  | swap16 => exact swap16
  | ret => exact ret

end Sys2Proof.Laws.RegistryRow
end

