-- ==== Sys2Proof/Laws/Decode.lean ====
section
/-! SUPPORT. The decoder's cases, the registry's rows, and the scan for jump destinations (spec/30_encoding.md R82 to R87,
spec/43_control.md R230). -/

namespace Sys2Proof

/-- Everything the decoder can answer. -/
theorem decodeAt_cases (code : List Byte) (pc : Nat) :
    (code.length ≤ pc ∧ decodeAt code pc = .syntheticStop) ∨
      (pc < code.length ∧ lookupOpcode (readByte code pc) = none ∧
        decodeAt code pc = .invalidOpcode (readByte code pc)) ∨
      (∃ r, pc < code.length ∧ lookupOpcode (readByte code pc) = some r ∧
        decodeAt code pc = .instr (r.make (BitVec.ofNat 256 (readBE code (pc + 1) r.width)))) := by
  by_cases h : pc < code.length
  · cases hr : lookupOpcode (readByte code pc) with
    | none => exact .inr (.inl ⟨h, rfl, by simp only [decodeAt, h, if_true, hr]⟩)
    | some r => exact .inr (.inr ⟨r, h, rfl, by simp only [decodeAt, h, if_true, hr]⟩)
  · exact .inl ⟨Nat.le_of_not_lt h, by simp only [decodeAt, h, if_false]⟩

/-- What every row of the registry keeps: its width is that of its instruction's immediate, at most 32, and is the number of
bytes the scan skips for its opcode byte (R83). -/
structure RowFact (r : OpRow) : Prop where
  width_le : r.width ≤ 32
  width_scan : immWidth r.opcode = r.width
  opcode : ∀ v, (r.make v).opcode = r.opcode
  length : ∀ v, (r.make v).length = 1 + r.width
  wide : r.width ≠ 0 → ∀ v, (r.make v).immediate = some (r.width, v)
  plain : r.width = 0 → ∀ v, (r.make v).immediate = none
  name : ∀ v, (r.make v).mnemonic = r.mnemonic

theorem rowFact : ∀ r ∈ registry, RowFact r := by
  simp only [registry, registryBase, registryPushLow, registryPushHigh, registryDup, registrySwap,
    List.forall_mem_append, List.forall_mem_cons]
  repeat' apply And.intro
  all_goals first
    | exact fun _ h => nomatch h
    | exact ⟨by decide, by decide, fun _ => rfl, fun _ => rfl, fun _ _ => rfl, fun h => absurd h (by decide), fun _ => rfl⟩
    | exact ⟨by decide, by decide, fun _ => rfl, fun _ => rfl, fun h => absurd rfl h, fun _ _ => rfl, fun _ => rfl⟩

theorem lookup_some {op : Byte} {r : OpRow} (h : lookupOpcode op = some r) : r ∈ registry ∧ r.opcode = op :=
  ⟨List.mem_of_find?_eq_some h, by simpa using List.find?_some h⟩

/-- The row found for a byte is the row of its instruction. -/
theorem lookup_fact {op : Byte} {r : OpRow} (h : lookupOpcode op = some r) : RowFact r ∧ r.opcode = op :=
  ⟨rowFact r (lookup_some h).1, (lookup_some h).2⟩

/-- A registry row is found by its own opcode byte. -/
theorem lookup_row : ∀ r ∈ registry, lookupOpcode r.opcode = some r := by
  simp only [registry, registryBase, registryPushLow, registryPushHigh, registryDup, registrySwap,
    List.forall_mem_append, List.forall_mem_cons]
  repeat' apply And.intro
  all_goals first
    | exact fun _ h => nomatch h
    | rfl

/-- The row behind a decoded instruction. -/
theorem decode_row {code : List Byte} {pc : Nat} {i : Instr} (h : decodeAt code pc = .instr i) :
    ∃ r, RowFact r ∧ r.opcode = readByte code pc ∧ pc < code.length ∧
      i = r.make (BitVec.ofNat 256 (readBE code (pc + 1) r.width)) := by
  rcases decodeAt_cases code pc with ⟨hl, hd⟩ | ⟨hl, _, hd⟩ | ⟨r, hl, hr, hd⟩ <;> rw [hd] at h <;> cases h
  exact ⟨r, (lookup_fact hr).1, (lookup_fact hr).2, hl, rfl⟩

/-- A decoded instruction starts below CODE_LEN, is at most 33 bytes long, and as long as the scan takes it to be. -/
theorem decode_len {code : List Byte} {pc : Nat} {i : Instr} (h : decodeAt code pc = .instr i) :
    pc < code.length ∧ i.length ≤ 33 ∧ i.length = 1 + immWidth (readByte code pc) := by
  obtain ⟨r, hf, ho, hl, rfl⟩ := decode_row h
  have := hf.width_le
  exact ⟨hl, by rw [hf.length]; omega, by rw [hf.length, ← ho, hf.width_scan]⟩

theorem decode_past {code : List Byte} {pc : Nat} (h : code.length ≤ pc) : decodeAt code pc = .syntheticStop := by
  simp only [decodeAt, Nat.not_lt.2 h, if_false]

theorem encode_length (i : Instr) : i.encode.length = i.length := by
  unfold Instr.encode Instr.length
  cases i.immediate with
  | none => rfl
  | some p => simp [Nat.add_comm]

/-! ### The scan (R230) -/

open Machine

theorem scan_lt {code : List Byte} {i skip t : Nat} (h : t ∈ scanJumpDests i skip code) :
    i ≤ t ∧ t < i + code.length ∧ code[t - i]? = some 0x5B := by
  induction code generalizing i skip with
  | nil => simp [scanJumpDests] at h
  | cons b rest ih =>
    have step : ∀ {k : Nat}, t ∈ scanJumpDests (i + 1) k rest →
        i ≤ t ∧ t < i + (b :: rest).length ∧ (b :: rest)[t - i]? = some 0x5B := by
      intro k hk
      obtain ⟨h1, h2, h3⟩ := ih hk
      refine ⟨by omega, by simp only [List.length_cons]; omega, ?_⟩
      rw [show t - i = (t - (i + 1)) + 1 by omega, List.getElem?_cons_succ]
      exact h3
    cases skip with
    | succ k => exact step (by simpa [scanJumpDests] using h)
    | zero =>
      simp only [scanJumpDests] at h
      split at h
      · rcases List.mem_cons.1 h with h | h
        · subst h; rename_i hb; subst hb
          exact ⟨Nat.le_refl _, by simp only [List.length_cons]; omega, by simp⟩
        · exact step h
      · exact step h

/-- Every member of JDEST is an offset of a 0x5B byte below CODE_LEN (R31). -/
theorem jumpDests_lt {code : List Byte} {t : Nat} (h : t ∈ jumpDests code) :
    t < code.length ∧ code[t]? = some 0x5B := by
  have := scan_lt h
  simpa using this.2

theorem scan_skip {code : List Byte} {i k : Nat} : scanJumpDests i k code = scanJumpDests (i + k) 0 (code.drop k) := by
  induction k generalizing i code with
  | zero => simp
  | succ k ih =>
    cases code with
    | nil => simp [scanJumpDests]
    | cons b rest => rw [scanJumpDests, ih, List.drop_succ_cons, show i + 1 + k = i + (k + 1) by omega]

/-- The scan from an opcode offset. -/
theorem scan_cons {code : List Byte} {i : Nat} {b : Byte} (h : code[i]? = some b) :
    scanJumpDests i 0 (code.drop i) =
      (if b = 0x5B then [i] else []) ++ scanJumpDests (i + 1 + immWidth b) 0 (code.drop (i + 1 + immWidth b)) := by
  have hi : i < code.length := by
    by_contra hc; rw [List.getElem?_eq_none (by omega)] at h; cases h
  have hb : code[i] = b := by rw [List.getElem?_eq_getElem hi] at h; exact Option.some.inj h
  rw [List.drop_eq_getElem_cons hi, hb, scanJumpDests]
  split <;> simp only [List.cons_append, List.nil_append] <;> rw [scan_skip, List.drop_drop]

theorem jumpDests_pairwise_aux (code : List Byte) (i skip : Nat) : (scanJumpDests i skip code).Pairwise (· < ·) := by
  induction code generalizing i skip with
  | nil => simp [scanJumpDests]
  | cons b rest ih =>
    cases skip with
    | succ k => simpa [scanJumpDests] using ih (i + 1) k
    | zero =>
      simp only [scanJumpDests]
      split
      · exact List.pairwise_cons.2 ⟨fun t ht => by have := (scan_lt ht).1; omega, ih _ _⟩
      · exact ih _ _

/-- An opcode offset below CODE_LEN that holds 0x5B is found by the scan from any earlier opcode offset it follows. -/
theorem opcodeOffset_scan {code : List Byte} {i : Nat} (h : OpcodeOffset code i) :
    ∀ t, t ∈ scanJumpDests i 0 (code.drop i) → t ∈ jumpDests code := by
  induction h with
  | zero => intro t ht; simpa [jumpDests] using ht
  | next i b _ hb ih =>
    intro t ht
    exact ih t (by rw [scan_cons hb]; exact List.mem_append_right _ ht)

/-- What the scan from an opcode offset finds is an opcode offset. -/
theorem scan_opcodeOffset {code : List Byte} (n : Nat) :
    ∀ i, code.length - i ≤ n → OpcodeOffset code i →
      ∀ t, t ∈ scanJumpDests i 0 (code.drop i) → OpcodeOffset code t := by
  induction n with
  | zero =>
    intro i hi _ t ht
    rw [List.drop_eq_nil_of_le (by omega)] at ht
    simp [scanJumpDests] at ht
  | succ n ih =>
    intro i hi ho t ht
    by_cases hlt : i < code.length
    · have hb : code[i]? = some code[i] := List.getElem?_eq_getElem hlt
      rw [scan_cons hb] at ht
      rcases List.mem_append.1 ht with ht | ht
      · split at ht
        · rw [List.mem_singleton.1 ht]; exact ho
        · simp at ht
      · exact ih (i + 1 + immWidth code[i]) (by omega) (.next i _ ho hb) t ht
    · rw [List.drop_eq_nil_of_le (by omega)] at ht
      simp [scanJumpDests] at ht

end Sys2Proof
end

