-- ==== Sys2Proof/Laws/State.lean ====
section
/-! SUPPORT. One lemma per field per update of State, true by rfl, so that no proof unfolds a record update. -/

namespace Sys2Proof.Machine

variable (s : State)

/-! ### withStack -/

@[simp] theorem State.withStack_stack (S : List Word) : (s.withStack S).stack = S := rfl
@[simp] theorem State.withStack_mem (S : List Word) : (s.withStack S).mem = s.mem := rfl
@[simp] theorem State.withStack_code (S : List Word) : (s.withStack S).code = s.code := rfl
@[simp] theorem State.withStack_calldata (S : List Word) : (s.withStack S).calldata = s.calldata := rfl
@[simp] theorem State.withStack_jdest (S : List Word) : (s.withStack S).jdest = s.jdest := rfl
@[simp] theorem State.withStack_pc (S : List Word) : (s.withStack S).pc = s.pc := rfl
@[simp] theorem State.withStack_status (S : List Word) : (s.withStack S).status = s.status := rfl
@[simp] theorem State.withStack_ret (S : List Word) : (s.withStack S).ret = s.ret := rfl
@[simp] theorem State.withStack_steps (S : List Word) : (s.withStack S).steps = s.steps := rfl
@[simp] theorem State.withStack_faultKind (S : List Word) : (s.withStack S).faultKind = s.faultKind := rfl
@[simp] theorem State.withStack_faultPc (S : List Word) : (s.withStack S).faultPc = s.faultPc := rfl
@[simp] theorem State.withStack_memCapacity (S : List Word) : (s.withStack S).memCapacity = s.memCapacity := rfl
@[simp] theorem State.withStack_codeMax (S : List Word) : (s.withStack S).codeMax = s.codeMax := rfl
@[simp] theorem State.withStack_stepBudget (S : List Word) : (s.withStack S).stepBudget = s.stepBudget := rfl
@[simp] theorem State.withStack_freeDraws (S : List Word) : (s.withStack S).freeDraws = s.freeDraws := rfl

/-! ### withMem -/

@[simp] theorem State.withMem_stack (m : Memory) : (s.withMem m).stack = s.stack := rfl
@[simp] theorem State.withMem_mem (m : Memory) : (s.withMem m).mem = m := rfl
@[simp] theorem State.withMem_code (m : Memory) : (s.withMem m).code = s.code := rfl
@[simp] theorem State.withMem_calldata (m : Memory) : (s.withMem m).calldata = s.calldata := rfl
@[simp] theorem State.withMem_jdest (m : Memory) : (s.withMem m).jdest = s.jdest := rfl
@[simp] theorem State.withMem_pc (m : Memory) : (s.withMem m).pc = s.pc := rfl
@[simp] theorem State.withMem_status (m : Memory) : (s.withMem m).status = s.status := rfl
@[simp] theorem State.withMem_ret (m : Memory) : (s.withMem m).ret = s.ret := rfl
@[simp] theorem State.withMem_steps (m : Memory) : (s.withMem m).steps = s.steps := rfl
@[simp] theorem State.withMem_faultKind (m : Memory) : (s.withMem m).faultKind = s.faultKind := rfl
@[simp] theorem State.withMem_faultPc (m : Memory) : (s.withMem m).faultPc = s.faultPc := rfl
@[simp] theorem State.withMem_memCapacity (m : Memory) : (s.withMem m).memCapacity = s.memCapacity := rfl
@[simp] theorem State.withMem_codeMax (m : Memory) : (s.withMem m).codeMax = s.codeMax := rfl
@[simp] theorem State.withMem_stepBudget (m : Memory) : (s.withMem m).stepBudget = s.stepBudget := rfl
@[simp] theorem State.withMem_freeDraws (m : Memory) : (s.withMem m).freeDraws = s.freeDraws := rfl

/-! ### setPc -/

@[simp] theorem State.setPc_stack (t : Nat) : (s.setPc t).stack = s.stack := rfl
@[simp] theorem State.setPc_mem (t : Nat) : (s.setPc t).mem = s.mem := rfl
@[simp] theorem State.setPc_code (t : Nat) : (s.setPc t).code = s.code := rfl
@[simp] theorem State.setPc_calldata (t : Nat) : (s.setPc t).calldata = s.calldata := rfl
@[simp] theorem State.setPc_jdest (t : Nat) : (s.setPc t).jdest = s.jdest := rfl
@[simp] theorem State.setPc_pc (t : Nat) : (s.setPc t).pc = t := rfl
@[simp] theorem State.setPc_status (t : Nat) : (s.setPc t).status = s.status := rfl
@[simp] theorem State.setPc_ret (t : Nat) : (s.setPc t).ret = s.ret := rfl
@[simp] theorem State.setPc_steps (t : Nat) : (s.setPc t).steps = s.steps := rfl
@[simp] theorem State.setPc_faultKind (t : Nat) : (s.setPc t).faultKind = s.faultKind := rfl
@[simp] theorem State.setPc_faultPc (t : Nat) : (s.setPc t).faultPc = s.faultPc := rfl
@[simp] theorem State.setPc_memCapacity (t : Nat) : (s.setPc t).memCapacity = s.memCapacity := rfl
@[simp] theorem State.setPc_codeMax (t : Nat) : (s.setPc t).codeMax = s.codeMax := rfl
@[simp] theorem State.setPc_stepBudget (t : Nat) : (s.setPc t).stepBudget = s.stepBudget := rfl
@[simp] theorem State.setPc_freeDraws (t : Nat) : (s.setPc t).freeDraws = s.freeDraws := rfl

/-! ### advance -/

@[simp] theorem State.advance_stack (n : Nat) : (s.advance n).stack = s.stack := rfl
@[simp] theorem State.advance_mem (n : Nat) : (s.advance n).mem = s.mem := rfl
@[simp] theorem State.advance_code (n : Nat) : (s.advance n).code = s.code := rfl
@[simp] theorem State.advance_calldata (n : Nat) : (s.advance n).calldata = s.calldata := rfl
@[simp] theorem State.advance_jdest (n : Nat) : (s.advance n).jdest = s.jdest := rfl
@[simp] theorem State.advance_pc (n : Nat) : (s.advance n).pc = s.pc + n := rfl
@[simp] theorem State.advance_status (n : Nat) : (s.advance n).status = s.status := rfl
@[simp] theorem State.advance_ret (n : Nat) : (s.advance n).ret = s.ret := rfl
@[simp] theorem State.advance_steps (n : Nat) : (s.advance n).steps = s.steps := rfl
@[simp] theorem State.advance_faultKind (n : Nat) : (s.advance n).faultKind = s.faultKind := rfl
@[simp] theorem State.advance_faultPc (n : Nat) : (s.advance n).faultPc = s.faultPc := rfl
@[simp] theorem State.advance_memCapacity (n : Nat) : (s.advance n).memCapacity = s.memCapacity := rfl
@[simp] theorem State.advance_codeMax (n : Nat) : (s.advance n).codeMax = s.codeMax := rfl
@[simp] theorem State.advance_stepBudget (n : Nat) : (s.advance n).stepBudget = s.stepBudget := rfl
@[simp] theorem State.advance_freeDraws (n : Nat) : (s.advance n).freeDraws = s.freeDraws := rfl

/-! ### haltNormal -/

@[simp] theorem State.haltNormal_stack (r : List Byte) : (s.haltNormal r).stack = s.stack := rfl
@[simp] theorem State.haltNormal_mem (r : List Byte) : (s.haltNormal r).mem = s.mem := rfl
@[simp] theorem State.haltNormal_code (r : List Byte) : (s.haltNormal r).code = s.code := rfl
@[simp] theorem State.haltNormal_calldata (r : List Byte) : (s.haltNormal r).calldata = s.calldata := rfl
@[simp] theorem State.haltNormal_jdest (r : List Byte) : (s.haltNormal r).jdest = s.jdest := rfl
@[simp] theorem State.haltNormal_pc (r : List Byte) : (s.haltNormal r).pc = s.pc := rfl
@[simp] theorem State.haltNormal_status (r : List Byte) : (s.haltNormal r).status = .haltedNormal := rfl
@[simp] theorem State.haltNormal_ret (r : List Byte) : (s.haltNormal r).ret = r := rfl
@[simp] theorem State.haltNormal_steps (r : List Byte) : (s.haltNormal r).steps = s.steps := rfl
@[simp] theorem State.haltNormal_faultKind (r : List Byte) : (s.haltNormal r).faultKind = s.faultKind := rfl
@[simp] theorem State.haltNormal_faultPc (r : List Byte) : (s.haltNormal r).faultPc = s.faultPc := rfl
@[simp] theorem State.haltNormal_memCapacity (r : List Byte) : (s.haltNormal r).memCapacity = s.memCapacity := rfl
@[simp] theorem State.haltNormal_codeMax (r : List Byte) : (s.haltNormal r).codeMax = s.codeMax := rfl
@[simp] theorem State.haltNormal_stepBudget (r : List Byte) : (s.haltNormal r).stepBudget = s.stepBudget := rfl
@[simp] theorem State.haltNormal_freeDraws (r : List Byte) : (s.haltNormal r).freeDraws = s.freeDraws := rfl

/-! ### stop -/

@[simp] theorem State.stop_stack : s.stop.stack = s.stack := rfl
@[simp] theorem State.stop_mem : s.stop.mem = s.mem := rfl
@[simp] theorem State.stop_code : s.stop.code = s.code := rfl
@[simp] theorem State.stop_calldata : s.stop.calldata = s.calldata := rfl
@[simp] theorem State.stop_jdest : s.stop.jdest = s.jdest := rfl
@[simp] theorem State.stop_pc : s.stop.pc = s.pc := rfl
@[simp] theorem State.stop_status : s.stop.status = .haltedNormal := rfl
@[simp] theorem State.stop_ret : s.stop.ret = [] := rfl
@[simp] theorem State.stop_steps : s.stop.steps = s.steps := rfl
@[simp] theorem State.stop_faultKind : s.stop.faultKind = s.faultKind := rfl
@[simp] theorem State.stop_faultPc : s.stop.faultPc = s.faultPc := rfl
@[simp] theorem State.stop_memCapacity : s.stop.memCapacity = s.memCapacity := rfl
@[simp] theorem State.stop_codeMax : s.stop.codeMax = s.codeMax := rfl
@[simp] theorem State.stop_stepBudget : s.stop.stepBudget = s.stepBudget := rfl
@[simp] theorem State.stop_freeDraws : s.stop.freeDraws = s.freeDraws := rfl

/-! ### recordFault -/

@[simp] theorem State.recordFault_stack (k : FaultKind) (p : Nat) : (s.recordFault k p).stack = s.stack := rfl
@[simp] theorem State.recordFault_mem (k : FaultKind) (p : Nat) : (s.recordFault k p).mem = s.mem := rfl
@[simp] theorem State.recordFault_code (k : FaultKind) (p : Nat) : (s.recordFault k p).code = s.code := rfl
@[simp] theorem State.recordFault_calldata (k : FaultKind) (p : Nat) : (s.recordFault k p).calldata = s.calldata := rfl
@[simp] theorem State.recordFault_jdest (k : FaultKind) (p : Nat) : (s.recordFault k p).jdest = s.jdest := rfl
@[simp] theorem State.recordFault_pc (k : FaultKind) (p : Nat) : (s.recordFault k p).pc = s.pc := rfl
@[simp] theorem State.recordFault_status (k : FaultKind) (p : Nat) : (s.recordFault k p).status = .haltedFault := rfl
@[simp] theorem State.recordFault_ret (k : FaultKind) (p : Nat) : (s.recordFault k p).ret = s.ret := rfl
@[simp] theorem State.recordFault_steps (k : FaultKind) (p : Nat) : (s.recordFault k p).steps = s.steps := rfl
@[simp] theorem State.recordFault_faultKind (k : FaultKind) (p : Nat) : (s.recordFault k p).faultKind = k := rfl
@[simp] theorem State.recordFault_faultPc (k : FaultKind) (p : Nat) : (s.recordFault k p).faultPc = p := rfl
@[simp] theorem State.recordFault_memCapacity (k : FaultKind) (p : Nat) : (s.recordFault k p).memCapacity = s.memCapacity := rfl
@[simp] theorem State.recordFault_codeMax (k : FaultKind) (p : Nat) : (s.recordFault k p).codeMax = s.codeMax := rfl
@[simp] theorem State.recordFault_stepBudget (k : FaultKind) (p : Nat) : (s.recordFault k p).stepBudget = s.stepBudget := rfl
@[simp] theorem State.recordFault_freeDraws (k : FaultKind) (p : Nat) : (s.recordFault k p).freeDraws = s.freeDraws := rfl

/-! ### forgetContents -/

@[simp] theorem State.forgetContents_stack : s.forgetContents.stack = (Config.freeStack s.freeDraws).take Config.stackDepth := rfl
@[simp] theorem State.forgetContents_mem : s.forgetContents.mem = Memory.free s.memCapacity s.freeDraws := rfl
@[simp] theorem State.forgetContents_code : s.forgetContents.code = s.code := rfl
@[simp] theorem State.forgetContents_calldata : s.forgetContents.calldata = s.calldata := rfl
@[simp] theorem State.forgetContents_jdest : s.forgetContents.jdest = s.jdest := rfl
@[simp] theorem State.forgetContents_pc : s.forgetContents.pc = s.pc := rfl
@[simp] theorem State.forgetContents_status : s.forgetContents.status = s.status := rfl
@[simp] theorem State.forgetContents_ret : s.forgetContents.ret = (Config.freeRet s.freeDraws).take s.memCapacity := rfl
@[simp] theorem State.forgetContents_steps : s.forgetContents.steps = min (Config.freeSteps s.freeDraws) (s.stepBudget + 1) := rfl
@[simp] theorem State.forgetContents_faultKind : s.forgetContents.faultKind = s.faultKind := rfl
@[simp] theorem State.forgetContents_faultPc : s.forgetContents.faultPc = s.faultPc := rfl
@[simp] theorem State.forgetContents_memCapacity : s.forgetContents.memCapacity = s.memCapacity := rfl
@[simp] theorem State.forgetContents_codeMax : s.forgetContents.codeMax = s.codeMax := rfl
@[simp] theorem State.forgetContents_stepBudget : s.forgetContents.stepBudget = s.stepBudget := rfl
@[simp] theorem State.forgetContents_freeDraws : s.forgetContents.freeDraws = s.freeDraws + 1 := rfl

/-! ### raiseFault -/

@[simp] theorem State.raiseFault_stack (k : FaultKind) (p : Nat) : (s.raiseFault k p).stack = (Config.freeStack s.freeDraws).take Config.stackDepth := rfl
@[simp] theorem State.raiseFault_mem (k : FaultKind) (p : Nat) : (s.raiseFault k p).mem = Memory.free s.memCapacity s.freeDraws := rfl
@[simp] theorem State.raiseFault_code (k : FaultKind) (p : Nat) : (s.raiseFault k p).code = s.code := rfl
@[simp] theorem State.raiseFault_calldata (k : FaultKind) (p : Nat) : (s.raiseFault k p).calldata = s.calldata := rfl
@[simp] theorem State.raiseFault_jdest (k : FaultKind) (p : Nat) : (s.raiseFault k p).jdest = s.jdest := rfl
@[simp] theorem State.raiseFault_pc (k : FaultKind) (p : Nat) : (s.raiseFault k p).pc = s.pc := rfl
@[simp] theorem State.raiseFault_status (k : FaultKind) (p : Nat) : (s.raiseFault k p).status = .haltedFault := rfl
@[simp] theorem State.raiseFault_ret (k : FaultKind) (p : Nat) : (s.raiseFault k p).ret = (Config.freeRet s.freeDraws).take s.memCapacity := rfl
@[simp] theorem State.raiseFault_steps (k : FaultKind) (p : Nat) : (s.raiseFault k p).steps = min (Config.freeSteps s.freeDraws) (s.stepBudget + 1) := rfl
@[simp] theorem State.raiseFault_faultKind (k : FaultKind) (p : Nat) : (s.raiseFault k p).faultKind = k := rfl
@[simp] theorem State.raiseFault_faultPc (k : FaultKind) (p : Nat) : (s.raiseFault k p).faultPc = p := rfl
@[simp] theorem State.raiseFault_memCapacity (k : FaultKind) (p : Nat) : (s.raiseFault k p).memCapacity = s.memCapacity := rfl
@[simp] theorem State.raiseFault_codeMax (k : FaultKind) (p : Nat) : (s.raiseFault k p).codeMax = s.codeMax := rfl
@[simp] theorem State.raiseFault_stepBudget (k : FaultKind) (p : Nat) : (s.raiseFault k p).stepBudget = s.stepBudget := rfl
@[simp] theorem State.raiseFault_freeDraws (k : FaultKind) (p : Nat) : (s.raiseFault k p).freeDraws = s.freeDraws + 1 := rfl

/-! ### countStep -/

@[simp] theorem State.countStep_stack : s.countStep.stack = s.stack := rfl
@[simp] theorem State.countStep_mem : s.countStep.mem = s.mem := rfl
@[simp] theorem State.countStep_code : s.countStep.code = s.code := rfl
@[simp] theorem State.countStep_calldata : s.countStep.calldata = s.calldata := rfl
@[simp] theorem State.countStep_jdest : s.countStep.jdest = s.jdest := rfl
@[simp] theorem State.countStep_pc : s.countStep.pc = s.pc := rfl
@[simp] theorem State.countStep_status : s.countStep.status = s.status := rfl
@[simp] theorem State.countStep_ret : s.countStep.ret = s.ret := rfl
@[simp] theorem State.countStep_steps : s.countStep.steps = s.steps + 1 := rfl
@[simp] theorem State.countStep_faultKind : s.countStep.faultKind = s.faultKind := rfl
@[simp] theorem State.countStep_faultPc : s.countStep.faultPc = s.faultPc := rfl
@[simp] theorem State.countStep_memCapacity : s.countStep.memCapacity = s.memCapacity := rfl
@[simp] theorem State.countStep_codeMax : s.countStep.codeMax = s.codeMax := rfl
@[simp] theorem State.countStep_stepBudget : s.countStep.stepBudget = s.stepBudget := rfl
@[simp] theorem State.countStep_freeDraws : s.countStep.freeDraws = s.freeDraws := rfl

/-! ### State.initial -/

variable (cap cmax budget : Nat) (code calldata : List Byte)

@[simp] theorem State.initial_stack : (State.initial cap cmax budget code calldata).stack = [] := rfl
@[simp] theorem State.initial_mem : (State.initial cap cmax budget code calldata).mem = Memory.empty := rfl
@[simp] theorem State.initial_code : (State.initial cap cmax budget code calldata).code = code := rfl
@[simp] theorem State.initial_calldata : (State.initial cap cmax budget code calldata).calldata = calldata := rfl
@[simp] theorem State.initial_jdest : (State.initial cap cmax budget code calldata).jdest = jumpDests code := rfl
@[simp] theorem State.initial_pc : (State.initial cap cmax budget code calldata).pc = 0 := rfl
@[simp] theorem State.initial_status : (State.initial cap cmax budget code calldata).status = .running := rfl
@[simp] theorem State.initial_ret : (State.initial cap cmax budget code calldata).ret = [] := rfl
@[simp] theorem State.initial_steps : (State.initial cap cmax budget code calldata).steps = 0 := rfl
@[simp] theorem State.initial_memCapacity : (State.initial cap cmax budget code calldata).memCapacity = cap := rfl
@[simp] theorem State.initial_codeMax : (State.initial cap cmax budget code calldata).codeMax = cmax := rfl
@[simp] theorem State.initial_stepBudget : (State.initial cap cmax budget code calldata).stepBudget = budget := rfl

end Sys2Proof.Machine
end

