-- ==== Sys2Proof/Laws/Memory.lean ====
section
/-! SUPPORT. Memory: reading after a write, growth, and that every operation keeps the canonical form (spec/20_memory.md R52 to
R60). -/

namespace Sys2Proof.Machine

/-! ### Cells -/

/-- The canonical form of a cell list: addresses rising, no 0 listed. -/
def CellsWf (cells : List Host.Cell) : Prop :=
  (cells.map Prod.fst).Pairwise (· < ·) ∧ ∀ c ∈ cells, c.2 ≠ 0

theorem cellsWf_nil : CellsWf [] := ⟨.nil, by simp⟩

theorem cellsWf_cons {x : Nat} {v : Byte} {rest : List Host.Cell} :
    CellsWf ((x, v) :: rest) ↔ v ≠ 0 ∧ (∀ c ∈ rest, x < c.1) ∧ CellsWf rest := by
  simp only [CellsWf, List.map_cons, List.pairwise_cons, List.mem_cons, List.forall_mem_map]
  constructor
  · rintro ⟨⟨h1, h2⟩, h3⟩
    exact ⟨h3 _ (.inl rfl), h1, h2, fun c hc => h3 c (.inr hc)⟩
  · rintro ⟨h1, h2, h3, h4⟩
    exact ⟨⟨h2, h3⟩, fun c hc => hc.elim (fun e => e ▸ h1) (h4 c)⟩

theorem mem_setCell {cells : List Host.Cell} {a : Nat} {v : Byte} {c : Host.Cell} (h : c ∈ setCell cells a v) :
    c = (a, v) ∨ c ∈ cells := by
  induction cells with
  | nil => simp only [setCell] at h; split at h <;> simp_all
  | cons d rest ih =>
    obtain ⟨x, u⟩ := d
    simp only [setCell] at h
    split at h
    · split at h <;> simp_all
    · split at h
      · split at h
        · exact .inr (List.mem_cons_of_mem _ h)
        · rcases List.mem_cons.1 h with h | h
          · exact .inl h
          · exact .inr (List.mem_cons_of_mem _ h)
      · rcases List.mem_cons.1 h with h | h
        · exact .inr (h ▸ List.mem_cons_self)
        · rcases ih h with h | h
          · exact .inl h
          · exact .inr (List.mem_cons_of_mem _ h)

theorem setCell_wf {cells : List Host.Cell} {a : Nat} {v : Byte} (h : CellsWf cells) : CellsWf (setCell cells a v) := by
  induction cells with
  | nil =>
    simp only [setCell]
    split
    · exact cellsWf_nil
    · exact cellsWf_cons.2 ⟨by assumption, by simp, cellsWf_nil⟩
  | cons d rest ih =>
    obtain ⟨x, u⟩ := d
    obtain ⟨hu, hx, hr⟩ := cellsWf_cons.1 h
    simp only [setCell]
    split
    · split
      · exact h
      · refine cellsWf_cons.2 ⟨by assumption, ?_, h⟩
        intro c hc
        rcases List.mem_cons.1 hc with rfl | hc
        · assumption
        · exact Nat.lt_trans (by assumption) (hx c hc)
    · split
      · split
        · exact hr
        · exact cellsWf_cons.2 ⟨by assumption, by subst_vars; exact hx, hr⟩
      · refine cellsWf_cons.2 ⟨hu, ?_, ih hr⟩
        intro c hc
        rcases mem_setCell hc with rfl | hc
        · simp only; omega
        · exact hx c hc

theorem cellAt_eq_zero {cells : List Host.Cell} {a : Nat} (h : ∀ c ∈ cells, c.1 ≠ a) : cellAt cells a = 0 := by
  induction cells with
  | nil => rfl
  | cons d rest ih =>
    obtain ⟨x, u⟩ := d
    have hx : x ≠ a := h (x, u) List.mem_cons_self
    simp only [cellAt, hx, if_false]
    exact ih fun c hc => h c (List.mem_cons_of_mem _ hc)

/-- Read after write at the same address. -/
theorem cellAt_setCell_same {cells : List Host.Cell} {a : Nat} {v : Byte} (h : CellsWf cells) :
    cellAt (setCell cells a v) a = v := by
  induction cells with
  | nil => simp only [setCell]; split <;> simp_all [cellAt]
  | cons d rest ih =>
    obtain ⟨x, u⟩ := d
    obtain ⟨hu, hx, hr⟩ := cellsWf_cons.1 h
    simp only [setCell]
    split
    · split
      · subst_vars
        refine cellAt_eq_zero fun c hc => ?_
        rcases List.mem_cons.1 hc with rfl | hc
        · simp only; omega
        · have := hx c hc; omega
      · simp [cellAt]
    · split
      · split
        · subst_vars
          exact cellAt_eq_zero fun c hc => by have := hx c hc; omega
        · simp [cellAt]
      · have : x ≠ a := fun e => by simp_all
        simp only [cellAt, this, if_false]
        exact ih hr

/-- A write leaves every other address alone. -/
theorem cellAt_setCell_other {cells : List Host.Cell} {a b : Nat} {v : Byte} (hab : b ≠ a) :
    cellAt (setCell cells a v) b = cellAt cells b := by
  induction cells with
  | nil => simp only [setCell]; split <;> simp [cellAt, Ne.symm hab]
  | cons d rest ih =>
    obtain ⟨x, u⟩ := d
    simp only [setCell]
    split
    · split <;> simp [cellAt, Ne.symm hab]
    · split
      · subst_vars
        split <;> simp [cellAt, Ne.symm hab]
      · simp only [cellAt, ih]

theorem setCells_wf {bs : List Byte} {cells : List Host.Cell} {a : Nat} (h : CellsWf cells) :
    CellsWf (setCells cells a bs) := by
  induction bs generalizing cells a with
  | nil => exact h
  | cons b rest ih => exact ih (setCell_wf h)

theorem mem_setCells {bs : List Byte} {cells : List Host.Cell} {a : Nat} {c : Host.Cell}
    (h : c ∈ setCells cells a bs) : c ∈ cells ∨ c.1 < a + bs.length := by
  induction bs generalizing cells a with
  | nil => exact .inl h
  | cons b rest ih =>
    rcases ih h with h | h
    · rcases mem_setCell h with rfl | h
      · exact .inr (by simp)
      · exact .inl h
    · exact .inr (by simp only [List.length_cons]; omega)

/-- Writing consecutive bytes: an address outside them reads as before. -/
theorem cellAt_setCells_other {bs : List Byte} {cells : List Host.Cell} {a x : Nat}
    (h : x < a ∨ a + bs.length ≤ x) : cellAt (setCells cells a bs) x = cellAt cells x := by
  induction bs generalizing cells a with
  | nil => rfl
  | cons b rest ih =>
    simp only [List.length_cons] at h
    rw [setCells, ih (by omega), cellAt_setCell_other (by omega)]

/-- Writing consecutive bytes: each address among them reads its byte. -/
theorem cellAt_setCells {bs : List Byte} {cells : List Host.Cell} {a j : Nat} {b : Byte} (hw : CellsWf cells)
    (hj : bs[j]? = some b) : cellAt (setCells cells a bs) (a + j) = b := by
  induction bs generalizing cells a j with
  | nil => simp at hj
  | cons d rest ih =>
    cases j with
    | zero =>
      simp only [List.getElem?_cons_zero, Option.some.injEq] at hj
      subst hj
      rw [setCells, cellAt_setCells_other (by omega)]
      exact cellAt_setCell_same hw
    | succ j =>
      have h := ih (setCell_wf (a := a) (v := d) hw) (a := a + 1) (j := j) (by simpa using hj)
      rw [setCells, show a + (j + 1) = a + 1 + j by omega]
      exact h

theorem cellAt_filter {cells : List Host.Cell} {n a : Nat} (h : a < n) :
    cellAt (cells.filter fun c => c.1 < n) a = cellAt cells a := by
  induction cells with
  | nil => rfl
  | cons d rest ih =>
    obtain ⟨x, u⟩ := d
    by_cases hx : x < n
    · simp only [List.filter_cons, hx, decide_true, if_true, cellAt, ih]
    · have : x ≠ a := by omega
      simp only [List.filter_cons, hx, decide_false, Bool.false_eq_true, cellAt, this, if_false, ih]

theorem filter_wf {cells : List Host.Cell} {p : Host.Cell → Bool} (h : CellsWf cells) : CellsWf (cells.filter p) :=
  ⟨List.Pairwise.sublist (List.Sublist.map _ List.filter_sublist) h.1,
    fun c hc => h.2 c (List.mem_of_mem_filter hc)⟩

/-! ### Growth (R52, R54) -/

theorem wf_iff {m : Memory} : m.wf ↔ CellsWf m.cells ∧ (∀ c ∈ m.cells, c.1 < m.len) ∧ m.len % 32 = 0 := by
  simp only [Memory.wf, Memory.canonical, CellsWf]
  constructor
  · rintro ⟨⟨h1, h2⟩, h3⟩
    exact ⟨⟨h1, fun c hc => (h2 c hc).1⟩, fun c hc => (h2 c hc).2, h3⟩
  · rintro ⟨⟨h1, h2⟩, h3, h4⟩
    exact ⟨⟨h1, fun c hc => ⟨h2 c hc, h3 c hc⟩⟩, h4⟩

theorem newLen_mod (len k : Nat) : newLen len k % 32 = 0 := by simp [newLen]

theorem lt_newLen (len k : Nat) : k < newLen len k := by unfold newLen; omega

theorem le_newLen {len : Nat} (k : Nat) (h : len % 32 = 0) : len ≤ newLen len k := by unfold newLen; omega

/-- What growth gives: the new length, and every byte reads as before (R52, R60). -/
structure GrewTo (m m1 : Memory) (len : Nat) : Prop where
  len_eq : m1.len = len
  reads : ∀ a, m1.load8 a = m.load8 a
  wf : m.wf → m1.wf

/-- Everything growth can do. -/
theorem grow_cases (cap k : Nat) (m : Memory) :
    (fits cap m.len k ∧ ∃ m1, m.grow cap k = .ok m1 ∧ (m.len % 32 = 0 → GrewTo m m1 (newLen m.len k)) ∧
        m1.len = newLen m.len k ∧ (∀ a, a < m1.len → cellAt m1.cells a = m.load8 a)) ∨
      (¬ fits cap m.len k ∧ m.grow cap k = .error .memoryLimit) := by
  by_cases h : fits cap m.len k
  · refine .inl ⟨h, ⟨m.cells.filter fun c => c.1 < m.len, newLen m.len k⟩, ?_, ?_, rfl, ?_⟩
    · exact if_pos h
    · intro hm
      refine ⟨rfl, fun a => ?_, fun hw => ?_⟩
      · by_cases ha : a < m.len
        · have := le_newLen k hm
          simp only [Memory.load8, ha, if_true, show a < newLen m.len k by omega, cellAt_filter ha]
        · simp only [Memory.load8, ha, if_false]
          split
          · exact cellAt_eq_zero fun c hc => by have := (List.mem_filter.1 hc).2; simp at this; omega
          · rfl
      · obtain ⟨h1, h2, h3⟩ := wf_iff.1 hw
        refine wf_iff.2 ⟨filter_wf h1, fun c hc => ?_, newLen_mod _ _⟩
        have := h2 c (List.mem_of_mem_filter hc)
        have := le_newLen k hm
        simp only; omega
    · intro a _
      by_cases ha : a < m.len
      · simp only [Memory.load8, ha, if_true, cellAt_filter ha]
      · simp only [Memory.load8, ha, if_false]
        exact cellAt_eq_zero fun c hc => by have := (List.mem_filter.1 hc).2; simp at this; omega
  · exact .inr ⟨h, if_neg h⟩

/-- Growth to a byte that does not fit. -/
theorem grow_full {cap k : Nat} {m : Memory} (h : ¬ fits cap m.len k) : m.grow cap k = .error .memoryLimit := if_neg h

/-- No capacity takes a byte past 2^256 - 1 (R51). -/
theorem not_fits_past {cap len k : Nat} (h : 2 ^ 256 ≤ k) : ¬ fits cap len k := fun hf => Nat.not_lt.2 h hf.1

/-! ### Commands -/

/-- Everything MemStore8 of a byte value can do (R55). -/
theorem store8_cases {cap off v : Nat} {m : Memory} (hw : m.wf) (hv : v ≤ 255) :
    (fits cap m.len off ∧ ∃ m1, m.store8 cap off v = .ok m1 ∧ m1.wf ∧ m1.len = newLen m.len off ∧
        m1.load8 off = BitVec.ofNat 8 v ∧ ∀ a, a ≠ off → m1.load8 a = m.load8 a) ∨
      (¬ fits cap m.len off ∧ m.store8 cap off v = .error .memoryLimit) := by
  have hm := (wf_iff.1 hw).2.2
  rcases grow_cases cap off m with ⟨h, m1, e, hg, hl, _⟩ | ⟨h, e⟩
  · obtain ⟨h1, h2, h3⟩ := wf_iff.1 ((hg hm).wf hw)
    have hlt : off < m1.len := hl ▸ lt_newLen m.len off
    refine .inl ⟨h, { m1 with cells := setCell m1.cells off (BitVec.ofNat 8 v) }, ?_, ?_, hl, ?_, ?_⟩
    · simp only [Memory.store8, Nat.not_lt.2 hv, if_false, e]
    · refine wf_iff.2 ⟨setCell_wf h1, fun c hc => ?_, h3⟩
      rcases mem_setCell hc with rfl | hc
      · exact hlt
      · exact h2 c hc
    · simp only [Memory.load8, hlt, if_true, cellAt_setCell_same h1]
    · intro a ha
      rw [← (hg hm).reads a]
      simp only [Memory.load8, cellAt_setCell_other ha]
  · exact .inr ⟨h, by simp only [Memory.store8, Nat.not_lt.2 hv, if_false, e]⟩

theorem store8_invalid {cap off v : Nat} {m : Memory} (hv : 255 < v) : m.store8 cap off v = .error .invalidMemoryValue := by
  simp [Memory.store8, hv]

@[simp] theorem bytesAt_length (off n : Nat) (m : Memory) : (m.bytesAt off n).length = n := by simp [Memory.bytesAt]

theorem bytesAt_get {off n j : Nat} {m : Memory} (h : j < n) : (m.bytesAt off n)[j]? = some (m.load8 (off + j)) := by
  simp [Memory.bytesAt, List.getElem?_range h]

theorem loadRange_zero (cap off : Nat) (m : Memory) : m.loadRange cap off 0 = .ok ([], m) := rfl

/-- Everything MemLoadRange of at least one byte can do (R57), on a memory whose length is a multiple of 32 (R24). -/
theorem loadRange_cases {cap off n : Nat} {m : Memory} (hm : m.len % 32 = 0) (hn : n ≠ 0) :
    (fits cap m.len (off + n - 1) ∧ ∃ m1, m.loadRange cap off n = .ok (m.bytesAt off n, m1) ∧
        GrewTo m m1 (newLen m.len (off + n - 1))) ∨
      (¬ fits cap m.len (off + n - 1) ∧ m.loadRange cap off n = .error .memoryLimit) := by
  rcases grow_cases cap (off + n - 1) m with ⟨h, m1, e, hg, hl, _⟩ | ⟨h, e⟩
  · refine .inl ⟨h, m1, ?_, hg hm⟩
    have : m1.bytesAt off n = m.bytesAt off n := by simp only [Memory.bytesAt, (hg hm).reads]
    simp only [Memory.loadRange, hn, if_false, e, this]
  · exact .inr ⟨h, by simp only [Memory.loadRange, hn, if_false, e]⟩

@[simp] theorem beBytes_length (n : Nat) (w : Word) : (beBytes n w).length = n := by simp [beBytes]

theorem beBytes_get {n j : Nat} {w : Word} (h : j < n) :
    (beBytes n w)[j]? = some (BitVec.ofNat 8 (w.toNat / 256 ^ (n - 1 - j))) := by
  simp [beBytes, List.getElem?_range h]

/-- Bytes written within the length keep the canonical form. -/
theorem write_wf {m : Memory} {off : Nat} {bs : List Byte} (hw : m.wf) (h : off + bs.length ≤ m.len) :
    ({ m with cells := setCells m.cells off bs } : Memory).wf := by
  obtain ⟨h1, h2, h3⟩ := wf_iff.1 hw
  refine wf_iff.2 ⟨setCells_wf h1, fun c hc => ?_, h3⟩
  rcases mem_setCells hc with hc | hc
  · exact h2 c hc
  · exact Nat.lt_of_lt_of_le hc h

theorem load8_write {m : Memory} {off j : Nat} {bs : List Byte} {b : Byte} (hw : m.wf) (h : off + bs.length ≤ m.len)
    (hj : bs[j]? = some b) : ({ m with cells := setCells m.cells off bs } : Memory).load8 (off + j) = b := by
  have hlt : j < bs.length := by
    by_contra hc; rw [List.getElem?_eq_none (by omega)] at hj; cases hj
  simp only [Memory.load8, show off + j < m.len by omega, if_true]
  exact cellAt_setCells (wf_iff.1 hw).1 hj

theorem load8_write_other {m : Memory} {off a : Nat} {bs : List Byte} (h : a < off ∨ off + bs.length ≤ a) :
    ({ m with cells := setCells m.cells off bs } : Memory).load8 a = m.load8 a := by
  simp only [Memory.load8, cellAt_setCells_other h]

/-- Everything MemStoreWord can do (R58, R64). -/
theorem storeWord_cases {cap off : Nat} {w : Word} {m : Memory} (hw : m.wf) :
    (fits cap m.len (off + 31) ∧ ∃ m1, m.storeWord cap off w = .ok m1 ∧ m1.wf ∧
        m1.len = newLen m.len (off + 31) ∧
        (∀ j, j < 32 → m1.load8 (off + j) = BitVec.ofNat 8 (w.toNat / 256 ^ (31 - j))) ∧
        ∀ a, a < off ∨ off + 32 ≤ a → m1.load8 a = m.load8 a) ∨
      (¬ fits cap m.len (off + 31) ∧ m.storeWord cap off w = .error .memoryLimit) := by
  have hm := (wf_iff.1 hw).2.2
  have hl32 := beBytes_length 32 w
  have hget : ∀ j, j < 32 → (beBytes 32 w)[j]? = some (BitVec.ofNat 8 (w.toNat / 256 ^ (31 - j))) :=
    fun j hj => beBytes_get hj
  rcases grow_cases cap (off + 31) m with ⟨h, m1, e, hg, hl, _⟩ | ⟨h, e⟩
  · have e1 : m.storeWord cap off w = .ok { m1 with cells := setCells m1.cells off (beBytes 32 w) } := by
      simp only [Memory.storeWord, e]
    have hlt : off + 31 < m1.len := hl ▸ lt_newLen m.len (off + 31)
    generalize beBytes 32 w = bs at hl32 hget e1
    have hb : off + bs.length ≤ m1.len := by omega
    exact .inl ⟨h, _, e1, write_wf ((hg hm).wf hw) hb, hl, fun j hj => load8_write ((hg hm).wf hw) hb (hget j hj),
      fun a ha => (load8_write_other (by omega)).trans ((hg hm).reads a)⟩
  · exact .inr ⟨h, by simp only [Memory.storeWord, e]⟩

theorem foldl_setCell_wf (cs : List Host.Cell) {acc : List Host.Cell} (h : CellsWf acc) :
    CellsWf (cs.foldl (fun a c => setCell a c.1 c.2) acc) := by
  induction cs generalizing acc with
  | nil => exact h
  | cons c rest ih => exact ih (setCell_wf h)

theorem mem_foldl_setCell {cs acc : List Host.Cell} {d : Host.Cell}
    (h : d ∈ cs.foldl (fun a c => setCell a c.1 c.2) acc) : d ∈ acc ∨ d ∈ cs := by
  induction cs generalizing acc with
  | nil => exact .inl h
  | cons c rest ih =>
    rcases ih h with h | h
    · rcases mem_setCell h with rfl | h
      · exact .inr List.mem_cons_self
      · exact .inl h
    · exact .inr (List.mem_cons_of_mem _ h)

/-- Free memory keeps the canonical form and the capacity. -/
theorem free_wf (cap draw : Nat) : (Memory.free cap draw).wf ∧ (Memory.free cap draw).len ≤ cap := by
  refine ⟨wf_iff.2 ⟨foldl_setCell_wf _ cellsWf_nil, fun c hc => ?_, ?_⟩, ?_⟩
  · rcases mem_foldl_setCell hc with h | h
    · simp at h
    · exact of_decide_eq_true (List.mem_filter.1 h).2
  · simp [Memory.free]
  · simp only [Memory.free]; omega

theorem empty_wf : Memory.empty.wf := by decide

/-- Growth fails with MemoryLimit only (R54). -/
theorem grow_error {cap k : Nat} {m : Memory} {f : FaultKind} (h : m.grow cap k = .error f) : f = .memoryLimit := by
  rcases grow_cases cap k m with ⟨_, m1, e, _⟩ | ⟨_, e⟩ <;> rw [e] at h <;> cases h; rfl

end Sys2Proof.Machine
end

