-- ==== Sys2Proof/Laws/Shape.lean ====
section
/-! SUPPORT. The twelve shapes behind the 75 instructions: exec of an instruction is runHandler of its shape's body, so a
proof over all instructions is a proof over the shapes. -/

namespace Sys2Proof.Machine

/-- What an instruction does, with the family members of one width or depth parameter taken together. -/
inductive Shape where
  | stop
  | alu (op : AluOp)
  | mstore8
  | jump
  | jumpi
  | pc
  | msize
  | jumpdest
  | push (n : Nat) (imm : Word)
  | dup (n : Nat)
  | swap (n : Nat)
  | ret
  deriving DecidableEq, Repr

/-- The shape of an instruction. -/
def shapeOf (i : Instr) : Shape :=
  match i with
  | .stop => .stop
  | .add => .alu .add
  | .mul => .alu .mul
  | .sub => .alu .sub
  | .mstore8 => .mstore8
  | .jump => .jump
  | .jumpi => .jumpi
  | .pc => .pc
  | .msize => .msize
  | .jumpdest => .jumpdest
  | .push1 imm => .push 1 imm
  | .push2 imm => .push 2 imm
  | .push3 imm => .push 3 imm
  | .push4 imm => .push 4 imm
  | .push5 imm => .push 5 imm
  | .push6 imm => .push 6 imm
  | .push7 imm => .push 7 imm
  | .push8 imm => .push 8 imm
  | .push9 imm => .push 9 imm
  | .push10 imm => .push 10 imm
  | .push11 imm => .push 11 imm
  | .push12 imm => .push 12 imm
  | .push13 imm => .push 13 imm
  | .push14 imm => .push 14 imm
  | .push15 imm => .push 15 imm
  | .push16 imm => .push 16 imm
  | .push17 imm => .push 17 imm
  | .push18 imm => .push 18 imm
  | .push19 imm => .push 19 imm
  | .push20 imm => .push 20 imm
  | .push21 imm => .push 21 imm
  | .push22 imm => .push 22 imm
  | .push23 imm => .push 23 imm
  | .push24 imm => .push 24 imm
  | .push25 imm => .push 25 imm
  | .push26 imm => .push 26 imm
  | .push27 imm => .push 27 imm
  | .push28 imm => .push 28 imm
  | .push29 imm => .push 29 imm
  | .push30 imm => .push 30 imm
  | .push31 imm => .push 31 imm
  | .push32 imm => .push 32 imm
  | .dup1 => .dup 1
  | .dup2 => .dup 2
  | .dup3 => .dup 3
  | .dup4 => .dup 4
  | .dup5 => .dup 5
  | .dup6 => .dup 6
  | .dup7 => .dup 7
  | .dup8 => .dup 8
  | .dup9 => .dup 9
  | .dup10 => .dup 10
  | .dup11 => .dup 11
  | .dup12 => .dup 12
  | .dup13 => .dup 13
  | .dup14 => .dup 14
  | .dup15 => .dup 15
  | .dup16 => .dup 16
  | .swap1 => .swap 1
  | .swap2 => .swap 2
  | .swap3 => .swap 3
  | .swap4 => .swap 4
  | .swap5 => .swap 5
  | .swap6 => .swap 6
  | .swap7 => .swap 7
  | .swap8 => .swap 8
  | .swap9 => .swap 9
  | .swap10 => .swap 10
  | .swap11 => .swap 11
  | .swap12 => .swap 12
  | .swap13 => .swap 13
  | .swap14 => .swap 14
  | .swap15 => .swap 15
  | .swap16 => .swap 16
  | .ret => .ret

/-- Bytes an instruction of a shape takes. -/
def Shape.length (h : Shape) : Nat :=
  match h with
  | .push n _ => 1 + n
  | .stop | .alu _ | .mstore8 | .jump | .jumpi | .pc | .msize | .jumpdest | .dup _ | .swap _ | .ret => 1

/-- The body a shape runs after pc has moved past the instruction that started at pc0. -/
def Shape.body (h : Shape) (pc0 : Nat) : State → Except FaultKind State :=
  match h with
  | .stop => fun s => .ok s.stop
  | .alu op => aluBody op
  | .mstore8 => mstore8Body
  | .jump => jumpBody
  | .jumpi => jumpiBody
  | .pc => pushNat pc0
  | .msize => fun s => pushNat (32 * s.mem.wordCount) s
  | .jumpdest => fun s => .ok s
  | .push _ imm => fun s => s.push imm
  | .dup n => dupBody n
  | .swap n => fun s => s.swap n
  | .ret => returnBody

theorem exec_eq_runHandler (i : Instr) (s : State) :
    exec i s = runHandler (shapeOf i).length ((shapeOf i).body s.pc) s := by
  cases i <;> rfl

theorem length_eq_shape_length (i : Instr) : i.length = (shapeOf i).length := by
  cases i <;> rfl

theorem shapeOf_immediate {i : Instr} {n : Nat} {imm : Word} (h : i.immediate = some (n, imm)) :
    shapeOf i = .push n imm ∧ 1 ≤ n ∧ n ≤ 32 := by
  cases i <;> simp_all [Instr.immediate, shapeOf] <;> omega

theorem shapeOf_dupNumber {i : Instr} {n : Nat} (h : i.dupNumber = some n) :
    shapeOf i = .dup n ∧ 1 ≤ n ∧ n ≤ 16 := by
  cases i <;> simp_all [Instr.dupNumber, shapeOf] <;> omega

theorem shapeOf_swapNumber {i : Instr} {n : Nat} (h : i.swapNumber = some n) :
    shapeOf i = .swap n ∧ 1 ≤ n ∧ n ≤ 16 := by
  cases i <;> simp_all [Instr.swapNumber, shapeOf] <;> omega

/-- A shape that no PUSH, DUP or SWAP has determines its instruction. -/
theorem shapeOf_inj_mstore8 {i : Instr} (h : shapeOf i = .mstore8) : i = .mstore8 := by
  cases i <;> first | rfl | exact absurd h (by simp [shapeOf])

theorem shapeOf_inj_ret {i : Instr} (h : shapeOf i = .ret) : i = .ret := by
  cases i <;> first | rfl | exact absurd h (by simp [shapeOf])

theorem shapeOf_inj_stop {i : Instr} (h : shapeOf i = .stop) : i = .stop := by
  cases i <;> first | rfl | exact absurd h (by simp [shapeOf])

theorem shapeOf_inj_jump {i : Instr} (h : shapeOf i = .jump) : i = .jump := by
  cases i <;> first | rfl | exact absurd h (by simp [shapeOf])

theorem shapeOf_inj_jumpi {i : Instr} (h : shapeOf i = .jumpi) : i = .jumpi := by
  cases i <;> first | rfl | exact absurd h (by simp [shapeOf])

/-- A DUP's and a SWAP's number lie in 1 to 16. -/
theorem shapeOf_dup_bound {i : Instr} {n : Nat} (h : shapeOf i = .dup n) : 1 ≤ n ∧ n ≤ 16 := by
  cases i <;> simp_all [shapeOf] <;> omega

theorem shapeOf_swap_bound {i : Instr} {n : Nat} (h : shapeOf i = .swap n) : 1 ≤ n ∧ n ≤ 16 := by
  cases i <;> simp_all [shapeOf] <;> omega

/-- A handler ends in the body's state or in the fault its body raises, at pc0. -/
theorem runHandler_cases (len : Nat) (body : State → Except FaultKind State) (s : State) :
    (∃ t, body (s.advance len) = .ok t ∧ runHandler len body s = .next t) ∨
      (∃ k, body (s.advance len) = .error k ∧
        runHandler len body s = .next ((s.advance len).raiseFault k s.pc)) := by
  unfold runHandler
  cases h : body (s.advance len) with
  | ok t => exact .inl ⟨t, rfl, rfl⟩
  | error k => exact .inr ⟨k, rfl, rfl⟩

theorem runHandler_ok {len : Nat} {body : State → Except FaultKind State} {s t : State}
    (h : body (s.advance len) = .ok t) : runHandler len body s = .next t := by
  unfold runHandler; rw [h]

theorem runHandler_error {len : Nat} {body : State → Except FaultKind State} {s : State} {k : FaultKind}
    (h : body (s.advance len) = .error k) : runHandler len body s = .next ((s.advance len).raiseFault k s.pc) := by
  unfold runHandler; rw [h]

/-- exec always answers a next state: its body's, or the fault entry at pc0. -/
theorem exec_cases (i : Instr) (s : State) :
    (∃ t, (shapeOf i).body s.pc (s.advance i.length) = .ok t ∧ exec i s = .next t) ∨
      (∃ k, (shapeOf i).body s.pc (s.advance i.length) = .error k ∧
        exec i s = .next ((s.advance i.length).raiseFault k s.pc)) := by
  rw [exec_eq_runHandler, length_eq_shape_length]
  exact runHandler_cases _ _ _

end Sys2Proof.Machine
end

