-- ==== Sys2Proof/Laws/Stack.lean ====
section
/-! SUPPORT. Everything the stack commands can do (spec/41_stack.md R120 to R123). -/

namespace Sys2Proof.Machine

@[simp] theorem stackDepth_eq : Config.stackDepth = 1024 := rfl

theorem stkPush_ok {w : Word} {S : List Word} (h : S.length ≠ 1024) : stkPush w S = .ok (w :: S) := by
  simp [stkPush, h]

theorem stkPush_full {w : Word} {S : List Word} (h : S.length = 1024) : stkPush w S = .error .stackOverflow := by
  simp [stkPush, h]

/-- Everything a push can do. -/
theorem stkPush_cases (w : Word) (S : List Word) :
    (S.length ≠ 1024 ∧ stkPush w S = .ok (w :: S)) ∨ (S.length = 1024 ∧ stkPush w S = .error .stackOverflow) := by
  by_cases h : S.length = 1024
  · exact .inr ⟨h, stkPush_full h⟩
  · exact .inl ⟨h, stkPush_ok h⟩

theorem stkPeek_ok {n : Nat} {S : List Word} {w : Word} (h : S[n]? = some w) : stkPeek n S = .ok w := by
  simp [stkPeek, h]

theorem stkPeek_short {n : Nat} {S : List Word} (h : S.length ≤ n) : stkPeek n S = .error .stackUnderflow := by
  simp [stkPeek, List.getElem?_eq_none h]

/-- The stack after SWAPn of a deep enough stack: only top(0) and top(n) change (R123, R175). -/
def swapped (n : Nat) (S : List Word) (a b : Word) : List Word := (S.set 0 b).set n a

theorem stkSwap_zero (S : List Word) : stkSwap 0 S = .error .invalidStackIndex := rfl

theorem stkSwap_ok {n : Nat} {S : List Word} {a b : Word} (hn : n ≠ 0) (h0 : S[0]? = some a) (h : S[n]? = some b) :
    stkSwap n S = .ok (swapped n S a b) := by
  simp [stkSwap, hn, h0, h, swapped]

theorem stkSwap_short {n : Nat} {S : List Word} (hn : n ≠ 0) (h : S.length ≤ n) :
    stkSwap n S = .error .stackUnderflow := by
  simp only [stkSwap, hn, if_false, List.getElem?_eq_none h]
  cases S[0]? <;> rfl

/-- Everything a swap by at least 1 can do. -/
theorem stkSwap_cases {n : Nat} (S : List Word) (hn : n ≠ 0) :
    (∃ a b, S[0]? = some a ∧ S[n]? = some b ∧ stkSwap n S = .ok (swapped n S a b)) ∨
      (S.length ≤ n ∧ stkSwap n S = .error .stackUnderflow) := by
  by_cases h : S.length ≤ n
  · exact .inr ⟨h, stkSwap_short hn h⟩
  · have h0 : 0 < S.length := by omega
    exact .inl ⟨S[0], S[n], List.getElem?_eq_getElem h0, List.getElem?_eq_getElem (by omega),
      stkSwap_ok hn (List.getElem?_eq_getElem h0) (List.getElem?_eq_getElem (by omega))⟩

@[simp] theorem swapped_length (n : Nat) (S : List Word) (a b : Word) : (swapped n S a b).length = S.length := by
  simp [swapped]

theorem swapped_top {n : Nat} {S : List Word} {a b : Word} (hn : n ≠ 0) (h0 : S[0]? = some a) :
    (swapped n S a b)[0]? = some b := by
  have : 0 < S.length := by
    by_contra hc; rw [List.getElem?_eq_none (by omega)] at h0; cases h0
  simp [swapped, this, hn]

theorem swapped_partner {n : Nat} {S : List Word} {a b : Word} (h : S[n]? = some b) :
    (swapped n S a b)[n]? = some a := by
  have : n < S.length := by
    by_contra hc; rw [List.getElem?_eq_none (by omega)] at h; cases h
  simp [swapped, this]

theorem swapped_other {n j : Nat} (S : List Word) (a b : Word) (h0 : j ≠ 0) (hn : j ≠ n) :
    (swapped n S a b)[j]? = S[j]? := by
  simp [swapped, Ne.symm h0, Ne.symm hn]

/-- SWAPn twice restores the stack (R175). -/
theorem swapped_swapped {n : Nat} {S : List Word} {a b : Word} (hn : n ≠ 0) (h0 : S[0]? = some a) (h : S[n]? = some b) :
    swapped n (swapped n S a b) b a = S := by
  apply List.ext_getElem?
  intro j
  by_cases hj0 : j = 0
  · subst hj0; rw [swapped_top hn (swapped_top hn h0), h0]
  · by_cases hjn : j = n
    · subst hjn; rw [swapped_partner (swapped_partner h), h]
    · rw [swapped_other _ _ _ hj0 hjn, swapped_other _ _ _ hj0 hjn]

/-! ### The commands on the state -/

theorem push_ok {w : Word} {s : State} (h : s.stack.length ≠ 1024) : s.push w = .ok (s.withStack (w :: s.stack)) := by
  simp [State.push, stkPush_ok h]

theorem push_full {w : Word} {s : State} (h : s.stack.length = 1024) : s.push w = .error .stackOverflow := by
  simp [State.push, stkPush_full h]

/-- Everything a push on the state can do. -/
theorem push_cases (w : Word) (s : State) :
    (s.stack.length ≠ 1024 ∧ s.push w = .ok (s.withStack (w :: s.stack))) ∨
      (s.stack.length = 1024 ∧ s.push w = .error .stackOverflow) := by
  by_cases h : s.stack.length = 1024
  · exact .inr ⟨h, push_full h⟩
  · exact .inl ⟨h, push_ok h⟩

theorem pop_cons {w : Word} {S : List Word} {s : State} (h : s.stack = w :: S) : s.pop = .ok (w, s.withStack S) := by
  simp [State.pop, stkPop, h]

theorem pop_empty {s : State} (h : s.stack = []) : s.pop = .error .stackUnderflow := by
  simp [State.pop, stkPop, h]

/-- Everything a pop on the state can do. -/
theorem pop_cases (s : State) :
    (∃ w S, s.stack = w :: S ∧ s.pop = .ok (w, s.withStack S)) ∨ (s.stack = [] ∧ s.pop = .error .stackUnderflow) := by
  cases h : s.stack with
  | nil => exact .inr ⟨rfl, pop_empty h⟩
  | cons w S => exact .inl ⟨w, S, rfl, pop_cons h⟩

theorem popTwo_cons {a b : Word} {S : List Word} {s : State} (h : s.stack = a :: b :: S) :
    s.popTwo = .ok (a, b, s.withStack S) := by
  simp [State.popTwo, State.pop, stkPop, State.withStack, h]

theorem popTwo_short {s : State} (h : s.stack.length < 2) : s.popTwo = .error .stackUnderflow := by
  match hs : s.stack with
  | [] => simp [State.popTwo, State.pop, stkPop, hs]
  | [a] => simp [State.popTwo, State.pop, stkPop, State.withStack, hs]
  | a :: b :: S => simp [hs] at h

/-- Everything two pops can do. -/
theorem popTwo_cases (s : State) :
    (∃ a b S, s.stack = a :: b :: S ∧ s.popTwo = .ok (a, b, s.withStack S)) ∨
      (s.stack.length < 2 ∧ s.popTwo = .error .stackUnderflow) := by
  match hs : s.stack with
  | [] => exact .inr ⟨by simp, popTwo_short (by simp [hs])⟩
  | [a] => exact .inr ⟨by simp, popTwo_short (by simp [hs])⟩
  | a :: b :: S => exact .inl ⟨a, b, S, rfl, popTwo_cons hs⟩

/-- Everything a swap by at least 1 on the state can do. -/
theorem swap_cases {n : Nat} (s : State) (hn : n ≠ 0) :
    (∃ a b, s.stack[0]? = some a ∧ s.stack[n]? = some b ∧
        s.swap n = .ok (s.withStack (swapped n s.stack a b))) ∨
      (s.stack.length ≤ n ∧ s.swap n = .error .stackUnderflow) := by
  rcases stkSwap_cases s.stack hn with ⟨a, b, h0, h, e⟩ | ⟨h, e⟩
  · exact .inl ⟨a, b, h0, h, by simp [State.swap, e]⟩
  · exact .inr ⟨h, by simp [State.swap, e]⟩

/-- Everything a peek on the state can do. -/
theorem peek_cases (n : Nat) (s : State) :
    (∃ w, s.stack[n]? = some w ∧ s.peek n = .ok w) ∨ (s.stack.length ≤ n ∧ s.peek n = .error .stackUnderflow) := by
  cases h : s.stack[n]? with
  | some w => exact .inl ⟨w, rfl, stkPeek_ok h⟩
  | none => exact .inr ⟨by simpa using h, stkPeek_short (by simpa using h)⟩

/-- zext_256 changes nothing but the counter of free draws, and that only for a number R8 gives no value. -/
theorem zext256_cases (v : Nat) (s : State) :
    (v < 2 ^ 256 ∧ s.zext256 v = (BitVec.ofNat 256 v, s)) ∨
      (2 ^ 256 ≤ v ∧ s.zext256 v = (Config.freeWord s.freeDraws, { s with freeDraws := s.freeDraws + 1 })) := by
  by_cases h : v < 2 ^ 256
  · exact .inl ⟨h, by simp only [State.zext256, h, if_true]⟩
  · exact .inr ⟨Nat.le_of_not_lt h, by simp only [State.zext256, h, if_false]⟩

/-- A sequence of commands runs in two parts. -/
theorem stkRun_append (a b : List StkCommand) (S : List Word) :
    stkRun (a ++ b) S = ((stkRun a S).1 ++ (stkRun b (stkRun a S).2).1, (stkRun b (stkRun a S).2).2) := by
  induction a generalizing S with
  | nil => rfl
  | cons c r ih => simp [stkRun, ih]

end Sys2Proof.Machine
end

