-- ==== Sys2Proof/Laws/Exec.lean ====
section
/-! SUPPORT. Everything each instruction body can do, and what all of them keep. -/

namespace Sys2Proof.Machine

/-! ### One lemma per body -/

/-- ADD, MUL, SUB (R105 to R107). -/
theorem aluBody_cases (op : AluOp) (s : State) :
    (∃ a b S, s.stack = a :: b :: S ∧ S.length ≠ 1024 ∧ aluBody op s = .ok (s.withStack (alu op a b :: S))) ∨
      (∃ a b S, s.stack = a :: b :: S ∧ S.length = 1024 ∧ aluBody op s = .error .stackOverflow) ∨
      (s.stack.length < 2 ∧ aluBody op s = .error .stackUnderflow) := by
  rcases popTwo_cases s with ⟨a, b, S, hs, e⟩ | ⟨h, e⟩
  · rcases push_cases (alu op a b) (s.withStack S) with ⟨h, e1⟩ | ⟨h, e1⟩
    · exact .inl ⟨a, b, S, hs, h, by simp only [aluBody, e, e1]; rfl⟩
    · exact .inr (.inl ⟨a, b, S, hs, h, by simp only [aluBody, e, e1]⟩)
  · exact .inr (.inr ⟨h, by simp only [aluBody, e]⟩)

/-- DUPn (R158). -/
theorem dupBody_cases (n : Nat) (s : State) :
    (∃ v, s.stack[n - 1]? = some v ∧ s.stack.length ≠ 1024 ∧ dupBody n s = .ok (s.withStack (v :: s.stack))) ∨
      (n - 1 < s.stack.length ∧ s.stack.length = 1024 ∧ dupBody n s = .error .stackOverflow) ∨
      (s.stack.length ≤ n - 1 ∧ dupBody n s = .error .stackUnderflow) := by
  rcases peek_cases (n - 1) s with ⟨v, hv, e⟩ | ⟨h, e⟩
  · have hlt : n - 1 < s.stack.length := by
      by_contra hc; rw [List.getElem?_eq_none (by omega)] at hv; cases hv
    rcases push_cases v s with ⟨h, e1⟩ | ⟨h, e1⟩
    · exact .inl ⟨v, hv, h, by simp only [dupBody, e, e1]⟩
    · exact .inr (.inl ⟨hlt, h, by simp only [dupBody, e, e1]⟩)
  · exact .inr (.inr ⟨h, by simp only [dupBody, e]⟩)

/-- MSTORE8 (R220): the popped value's low 8 bits, so InvalidMemoryValue cannot arise. -/
theorem mstore8Body_cases {s : State} :
    (∃ off val S m, s.stack = off :: val :: S ∧
        s.mem.store8 s.memCapacity off.toNat (val.toNat % 256) = .ok m ∧
        mstore8Body s = .ok ((s.withStack S).withMem m)) ∨
      (∃ off val S, s.stack = off :: val :: S ∧
        s.mem.store8 s.memCapacity off.toNat (val.toNat % 256) = .error .memoryLimit ∧
        mstore8Body s = .error .memoryLimit) ∨
      (s.stack.length < 2 ∧ mstore8Body s = .error .stackUnderflow) := by
  rcases popTwo_cases s with ⟨off, val, S, hs, e⟩ | ⟨h, e⟩
  · have hv : ¬ val.toNat % 256 > 255 := by omega
    rcases grow_cases s.memCapacity off.toNat s.mem with ⟨_, m1, eg, _⟩ | ⟨_, eg⟩
    · refine .inl ⟨off, val, S, _, hs, by simp only [Memory.store8, hv, if_false, eg]; rfl, ?_⟩
      simp only [mstore8Body, e, State.memStore8, State.withStack_mem, State.withStack_memCapacity, Memory.store8, hv,
        if_false, eg]
    · refine .inr (.inl ⟨off, val, S, hs, by simp only [Memory.store8, hv, if_false, eg], ?_⟩)
      simp only [mstore8Body, e, State.memStore8, State.withStack_mem, State.withStack_memCapacity, Memory.store8, hv,
        if_false, eg]
  · exact .inr (.inr ⟨h, by simp only [mstore8Body, e]⟩)

/-- MSIZE and PC (R221, R232): only the stack and the counter of free draws change. -/
theorem pushNat_cases (v : Nat) (s : State) :
    (s.stack.length ≠ 1024 ∧ ∃ w d, pushNat v s = .ok { s with stack := w :: s.stack, freeDraws := d } ∧
        (v < 2 ^ 256 → w = BitVec.ofNat 256 v ∧ d = s.freeDraws)) ∨
      (s.stack.length = 1024 ∧ pushNat v s = .error .stackOverflow) := by
  rcases zext256_cases v s with ⟨hv, e⟩ | ⟨hv, e⟩
  · rcases push_cases (BitVec.ofNat 256 v) s with ⟨h, e1⟩ | ⟨h, e1⟩
    · exact .inl ⟨h, _, _, by simp only [pushNat, e, e1]; rfl, fun _ => ⟨rfl, rfl⟩⟩
    · exact .inr ⟨h, by simp only [pushNat, e, e1]⟩
  · rcases push_cases (Config.freeWord s.freeDraws) { s with freeDraws := s.freeDraws + 1 } with ⟨h, e1⟩ | ⟨h, e1⟩
    · exact .inl ⟨h, _, _, by simp only [pushNat, e, e1]; rfl, fun hc => absurd hc (Nat.not_lt.2 hv)⟩
    · exact .inr ⟨h, by simp only [pushNat, e, e1]⟩

/-- The jump itself (R231, R233). -/
theorem jumpTo_cases (t : Word) (s : State) :
    (t.toNat ∈ s.jdest ∧ jumpTo t s = .ok (s.setPc t.toNat)) ∨
      (t.toNat ∉ s.jdest ∧ jumpTo t s = .error .invalidJumpDestination) := by
  by_cases h : t.toNat ∈ s.jdest
  · exact .inl ⟨h, by simp [jumpTo, State.jumpValid, h]⟩
  · exact .inr ⟨h, by simp [jumpTo, State.jumpValid, h]⟩

/-- JUMP (R233). -/
theorem jumpBody_cases (s : State) :
    (∃ t S, s.stack = t :: S ∧ t.toNat ∈ s.jdest ∧ jumpBody s = .ok ((s.withStack S).setPc t.toNat)) ∨
      (∃ t S, s.stack = t :: S ∧ t.toNat ∉ s.jdest ∧ jumpBody s = .error .invalidJumpDestination) ∨
      (s.stack = [] ∧ jumpBody s = .error .stackUnderflow) := by
  rcases pop_cases s with ⟨t, S, hs, e⟩ | ⟨h, e⟩
  · rcases jumpTo_cases t (s.withStack S) with ⟨h, e1⟩ | ⟨h, e1⟩
    · exact .inl ⟨t, S, hs, h, by simp only [jumpBody, e, e1]⟩
    · exact .inr (.inl ⟨t, S, hs, h, by simp only [jumpBody, e, e1]⟩)
  · exact .inr (.inr ⟨h, by simp only [jumpBody, e]⟩)

/-- JUMPI (R234). -/
theorem jumpiBody_cases (s : State) :
    (∃ t c S, s.stack = t :: c :: S ∧ c = 0 ∧ jumpiBody s = .ok (s.withStack S)) ∨
      (∃ t c S, s.stack = t :: c :: S ∧ c ≠ 0 ∧ t.toNat ∈ s.jdest ∧
        jumpiBody s = .ok ((s.withStack S).setPc t.toNat)) ∨
      (∃ t c S, s.stack = t :: c :: S ∧ c ≠ 0 ∧ t.toNat ∉ s.jdest ∧ jumpiBody s = .error .invalidJumpDestination) ∨
      (s.stack.length < 2 ∧ jumpiBody s = .error .stackUnderflow) := by
  rcases popTwo_cases s with ⟨t, c, S, hs, e⟩ | ⟨h, e⟩
  · by_cases hc : c = 0
    · exact .inl ⟨t, c, S, hs, hc, by simp [jumpiBody, e, conditionHolds, hc]⟩
    · rcases jumpTo_cases t (s.withStack S) with ⟨h, e1⟩ | ⟨h, e1⟩
      · exact .inr (.inl ⟨t, c, S, hs, hc, h, by simp only [jumpiBody, e, conditionHolds, ne_eq, hc, not_false_eq_true, decide_true, if_true, e1]⟩)
      · exact .inr (.inr (.inl ⟨t, c, S, hs, hc, h, by simp only [jumpiBody, e, conditionHolds, ne_eq, hc, not_false_eq_true, decide_true, if_true, e1]⟩))
  · exact .inr (.inr (.inr ⟨h, by simp only [jumpiBody, e]⟩))

/-- RETURN (R236). -/
theorem returnBody_cases (s : State) :
    (∃ off len S r m, s.stack = off :: len :: S ∧
        s.mem.loadRange s.memCapacity off.toNat len.toNat = .ok (r, m) ∧
        returnBody s = .ok (((s.withStack S).withMem m).haltNormal r)) ∨
      (∃ off len S k, s.stack = off :: len :: S ∧ s.mem.loadRange s.memCapacity off.toNat len.toNat = .error k ∧
        returnBody s = .error k) ∨
      (s.stack.length < 2 ∧ returnBody s = .error .stackUnderflow) := by
  rcases popTwo_cases s with ⟨off, len, S, hs, e⟩ | ⟨h, e⟩
  · cases hl : s.mem.loadRange s.memCapacity off.toNat len.toNat with
    | ok p =>
      obtain ⟨r, m⟩ := p
      exact .inl ⟨off, len, S, r, m, hs, hl, by
        simp only [returnBody, e, State.setReturnData, State.withStack_mem, State.withStack_memCapacity, hl]⟩
    | error k =>
      exact .inr (.inl ⟨off, len, S, k, hs, hl, by
        simp only [returnBody, e, State.setReturnData, State.withStack_mem, State.withStack_memCapacity, hl]⟩)
  · exact .inr (.inr ⟨h, by simp only [returnBody, e]⟩)

/-! ### Memory facts that need no canonical form -/

theorem loadRange_ok {cap off n : Nat} {m m1 : Memory} {r : List Byte} (h : m.loadRange cap off n = .ok (r, m1)) :
    r.length = n ∧ (n = 0 ∧ m1 = m ∨ n ≠ 0 ∧ m.grow cap (off + n - 1) = .ok m1) := by
  unfold Memory.loadRange at h
  split at h
  · rename_i hn
    simp only [Except.ok.injEq, Prod.mk.injEq] at h
    exact ⟨by rw [← h.1, hn]; rfl, .inl ⟨hn, h.2.symm⟩⟩
  · rename_i hn
    split at h
    · cases h
    · rename_i m2 e
      simp only [Except.ok.injEq, Prod.mk.injEq] at h
      exact ⟨by rw [← h.1]; simp, .inr ⟨hn, by rw [e, h.2]⟩⟩

theorem loadRange_error {cap off n : Nat} {m : Memory} {k : FaultKind} (h : m.loadRange cap off n = .error k) :
    k = .memoryLimit := by
  unfold Memory.loadRange at h
  split at h
  · cases h
  · rcases grow_cases cap (off + n - 1) m with ⟨_, m1, e, _⟩ | ⟨_, e⟩ <;> rw [e] at h <;> cases h
    rfl

theorem grow_ok {cap k : Nat} {m m1 : Memory} (h : m.grow cap k = .ok m1) :
    m1.len = newLen m.len k ∧ m1.len ≤ cap ∧ (m.len % 32 = 0 → GrewTo m m1 (newLen m.len k)) := by
  rcases grow_cases cap k m with ⟨hl, m2, e, hg, hm, _⟩ | ⟨_, e⟩ <;> rw [e] at h <;> cases h
  exact ⟨hm, hm ▸ hl.2, hg⟩

theorem store8_ok {cap off v : Nat} {m m1 : Memory} (h : m.store8 cap off v = .ok m1) :
    m1.len = newLen m.len off ∧ m1.len ≤ cap := by
  unfold Memory.store8 at h
  split at h
  · cases h
  · split at h
    · cases h
    · rename_i m2 e
      cases h
      exact ⟨(grow_ok e).1, (grow_ok e).2.1⟩

/-! ### What every body keeps -/

/-- What an instruction's body leaves of the state it ran on, by shape. -/
structure BodyFrame (h : Shape) (s t : State) : Prop where
  sameRun : s.SameRun t
  steps : t.steps = s.steps
  faultKind : t.faultKind = s.faultKind
  faultPc : t.faultPc = s.faultPc
  mem : h ≠ .mstore8 → h ≠ .ret → t.mem = s.mem
  status : h ≠ .stop → h ≠ .ret → t.status = s.status ∧ t.ret = s.ret
  halts : h = .stop ∨ h = .ret → t.status = .haltedNormal
  pc : h ≠ .jump → h ≠ .jumpi → t.pc = s.pc
  pcTarget : t.pc = s.pc ∨ t.pc ∈ s.jdest
  stackBound : s.stack.length ≤ 1024 → t.stack.length ≤ 1024
  memLen : s.mem.len % 32 = 0 → s.mem.len ≤ t.mem.len
  memWf : s.mem.wf → t.mem.wf
  memBound : s.mem.len ≤ s.memCapacity → t.mem.len ≤ s.memCapacity
  retBound : s.ret.length ≤ s.memCapacity → t.ret.length ≤ s.memCapacity

/-- A body that changes the stack only. -/
theorem bodyFrame_withStack {h : Shape} {s : State} {S : List Word} (hh : ¬ (h = .stop ∨ h = .ret))
    (hS : s.stack.length ≤ 1024 → S.length ≤ 1024) : BodyFrame h s (s.withStack S) :=
  ⟨⟨rfl, rfl, rfl, rfl, rfl, rfl⟩, rfl, rfl, rfl, fun _ _ => rfl, fun _ _ => ⟨rfl, rfl⟩, fun x => absurd x hh,
    fun _ _ => rfl, .inl rfl, hS, fun _ => Nat.le_refl _, id, id, id⟩

theorem bodyFrame_jump {h : Shape} {s : State} {S : List Word} {t : Nat} (hj : h = .jump ∨ h = .jumpi)
    (ht : t ∈ s.jdest) (hS : s.stack.length ≤ 1024 → S.length ≤ 1024) :
    BodyFrame h s ((s.withStack S).setPc t) := by
  refine ⟨⟨rfl, rfl, rfl, rfl, rfl, rfl⟩, rfl, rfl, rfl, fun _ _ => rfl, fun _ _ => ⟨rfl, rfl⟩, fun x => ?_,
    fun h1 h2 => absurd hj (by rintro (e | e) <;> contradiction), .inr ht, hS, fun _ => Nat.le_refl _, id, id, id⟩
  rcases hj with rfl | rfl <;> simp at x

/-- What a body that completes can have done (its frame), for every shape. -/
theorem body_frame {h : Shape} {pc0 : Nat} {s t : State} (hsw : ∀ n, h = .swap n → n ≠ 0) (hb : h.body pc0 s = .ok t) :
    BodyFrame h s t := by
  cases h with
  | stop =>
    cases hb
    exact ⟨⟨rfl, rfl, rfl, rfl, rfl, rfl⟩, rfl, rfl, rfl, fun _ _ => rfl, fun h => absurd rfl h, fun _ => rfl,
      fun _ _ => rfl, .inl rfl, id, fun _ => Nat.le_refl _, id, id, fun _ => Nat.zero_le _⟩
  | jumpdest =>
    cases hb
    exact bodyFrame_withStack (S := s.stack) (by simp) id
  | alu op =>
    rcases aluBody_cases op s with ⟨a, b, S, hs, hl, e⟩ | ⟨_, _, _, _, _, e⟩ | ⟨_, e⟩ <;> cases e.symm.trans hb
    exact bodyFrame_withStack (by simp) (by rw [hs]; simp; omega)
  | push n imm =>
    rcases push_cases imm s with ⟨hl, e⟩ | ⟨_, e⟩ <;> cases e.symm.trans hb
    exact bodyFrame_withStack (by simp) (by simp; omega)
  | dup n =>
    rcases dupBody_cases n s with ⟨v, _, hl, e⟩ | ⟨_, _, e⟩ | ⟨_, e⟩ <;> cases e.symm.trans hb
    exact bodyFrame_withStack (by simp) (by simp; omega)
  | swap n =>
    rcases swap_cases s (hsw n rfl) with ⟨a, b, _, _, e⟩ | ⟨_, e⟩ <;> cases e.symm.trans hb
    exact bodyFrame_withStack (by simp) (by simp)
  | pc =>
    rcases pushNat_cases pc0 s with ⟨hl, w, d, e, _⟩ | ⟨_, e⟩ <;> cases e.symm.trans hb
    exact ⟨⟨rfl, rfl, rfl, rfl, rfl, rfl⟩, rfl, rfl, rfl, fun _ _ => rfl, fun _ _ => ⟨rfl, rfl⟩, by simp,
      fun _ _ => rfl, .inl rfl, by simp; omega, fun _ => Nat.le_refl _, id, id, id⟩
  | msize =>
    rcases pushNat_cases (32 * s.mem.wordCount) s with ⟨hl, w, d, e, _⟩ | ⟨_, e⟩ <;> cases e.symm.trans hb
    exact ⟨⟨rfl, rfl, rfl, rfl, rfl, rfl⟩, rfl, rfl, rfl, fun _ _ => rfl, fun _ _ => ⟨rfl, rfl⟩, by simp,
      fun _ _ => rfl, .inl rfl, by simp; omega, fun _ => Nat.le_refl _, id, id, id⟩
  | jump =>
    rcases jumpBody_cases s with ⟨w, S, hs, ht, e⟩ | ⟨_, _, _, _, e⟩ | ⟨_, e⟩ <;> cases e.symm.trans hb
    exact bodyFrame_jump (.inl rfl) ht (by rw [hs]; simp; omega)
  | jumpi =>
    rcases jumpiBody_cases s with ⟨w, c, S, hs, _, e⟩ | ⟨w, c, S, hs, _, ht, e⟩ | ⟨_, _, _, _, _, _, e⟩ | ⟨_, e⟩ <;> cases e.symm.trans hb
    · exact bodyFrame_withStack (by simp) (by rw [hs]; simp; omega)
    · exact bodyFrame_jump (.inr rfl) ht (by rw [hs]; simp; omega)
  | mstore8 =>
    rcases mstore8Body_cases (s := s) with ⟨off, val, S, m, hs, hm, e⟩ | ⟨_, _, _, _, _, e⟩ | ⟨_, e⟩ <;> cases e.symm.trans hb
    refine ⟨⟨rfl, rfl, rfl, rfl, rfl, rfl⟩, rfl, rfl, rfl, fun h => absurd rfl h, fun _ _ => ⟨rfl, rfl⟩, by simp,
      fun _ _ => rfl, .inl rfl, by rw [hs]; simp; omega, fun h => ?_, fun h => ?_, fun _ => ?_, id⟩
    · simp only [State.withMem_mem, (store8_ok hm).1]; exact le_newLen _ h
    · rcases store8_cases h (show val.toNat % 256 ≤ 255 by omega) (cap := s.memCapacity) (off := off.toNat) with
        ⟨_, m1, e1, hw, _⟩ | ⟨_, e1⟩ <;> rw [e1] at hm <;> cases hm
      exact hw
    · exact (store8_ok hm).2
  | ret =>
    rcases returnBody_cases s with ⟨off, len, S, r, m, hs, hm, e⟩ | ⟨_, _, _, _, _, _, e⟩ | ⟨_, e⟩ <;> cases e.symm.trans hb
    obtain ⟨hr, hm⟩ := loadRange_ok hm
    refine ⟨⟨rfl, rfl, rfl, rfl, rfl, rfl⟩, rfl, rfl, rfl, fun _ h => absurd rfl h, fun _ h => absurd rfl h, fun _ => rfl,
      fun _ _ => rfl, .inl rfl, by rw [hs]; simp; omega, fun h => ?_, fun h => ?_, fun h => ?_, fun h => ?_⟩
    · rcases hm with ⟨_, rfl⟩ | ⟨_, hm⟩
      · exact Nat.le_refl _
      · simp only [State.haltNormal_mem, State.withMem_mem, (grow_ok hm).1]; exact le_newLen _ h
    · rcases hm with ⟨_, rfl⟩ | ⟨_, hm⟩
      · exact h
      · exact ((grow_ok hm).2.2 (wf_iff.1 h).2.2).wf h
    · rcases hm with ⟨_, rfl⟩ | ⟨_, hm⟩
      · exact h
      · exact (grow_ok hm).2.1
    · rcases hm with ⟨h0, rfl⟩ | ⟨h0, hm⟩
      · simp only [State.haltNormal_ret, hr, h0]; exact Nat.zero_le _
      · have h1 := (grow_ok hm).2.1
        rw [(grow_ok hm).1] at h1
        have h2 := lt_newLen s.mem.len (off.toNat + len.toNat - 1)
        simp only [State.haltNormal_ret, hr]; omega

/-- The faults each shape can raise (the column "raised by" of R270). -/
def Shape.faults (h : Shape) : List FaultKind :=
  match h with
  | .stop | .jumpdest => []
  | .alu _ | .dup _ => [.stackUnderflow, .stackOverflow]
  | .push _ _ | .pc | .msize => [.stackOverflow]
  | .swap _ => [.stackUnderflow]
  | .mstore8 | .ret => [.stackUnderflow, .memoryLimit]
  | .jump | .jumpi => [.stackUnderflow, .invalidJumpDestination]

theorem body_fault {h : Shape} {pc0 : Nat} {s : State} {k : FaultKind} (hsw : ∀ n, h = .swap n → n ≠ 0)
    (hb : h.body pc0 s = .error k) : k ∈ h.faults := by
  cases h with
  | stop => cases hb
  | jumpdest => cases hb
  | alu op =>
    rcases aluBody_cases op s with ⟨_, _, _, _, _, e⟩ | ⟨_, _, _, _, _, e⟩ | ⟨_, e⟩ <;> cases e.symm.trans hb <;> simp [Shape.faults]
  | push n imm =>
    rcases push_cases imm s with ⟨_, e⟩ | ⟨_, e⟩ <;> cases e.symm.trans hb; simp [Shape.faults]
  | dup n =>
    rcases dupBody_cases n s with ⟨_, _, _, e⟩ | ⟨_, _, e⟩ | ⟨_, e⟩ <;> cases e.symm.trans hb <;> simp [Shape.faults]
  | swap n =>
    rcases swap_cases s (hsw n rfl) with ⟨_, _, _, _, e⟩ | ⟨_, e⟩ <;> cases e.symm.trans hb; simp [Shape.faults]
  | pc =>
    rcases pushNat_cases pc0 s with ⟨_, _, _, e, _⟩ | ⟨_, e⟩ <;> cases e.symm.trans hb; decide
  | msize =>
    rcases pushNat_cases (32 * s.mem.wordCount) s with ⟨_, _, _, e, _⟩ | ⟨_, e⟩ <;> cases e.symm.trans hb; decide
  | jump =>
    rcases jumpBody_cases s with ⟨_, _, _, _, e⟩ | ⟨_, _, _, _, e⟩ | ⟨_, e⟩ <;> cases e.symm.trans hb <;> decide
  | jumpi =>
    rcases jumpiBody_cases s with ⟨_, _, _, _, _, e⟩ | ⟨_, _, _, _, _, _, e⟩ | ⟨_, _, _, _, _, _, e⟩ | ⟨_, e⟩ <;> cases e.symm.trans hb <;> decide
  | mstore8 =>
    rcases mstore8Body_cases (s := s) with ⟨_, _, _, _, _, _, e⟩ | ⟨_, _, _, _, _, e⟩ | ⟨_, e⟩ <;> cases e.symm.trans hb <;> decide
  | ret =>
    rcases returnBody_cases s with ⟨_, _, _, _, _, _, _, e⟩ | ⟨_, _, _, k', _, hk, e⟩ | ⟨_, e⟩ <;> cases e.symm.trans hb
    · rw [loadRange_error hk]; decide
    · decide

theorem shapeOf_swap_ne (i : Instr) : ∀ n, shapeOf i = .swap n → n ≠ 0 := fun _ h => by
  have := shapeOf_swap_bound h; omega

/-- The inversion of exec: a next state that did not come from a fault has the frame of its shape; the other is the fault
entry at pc0 with a fault of its shape. -/
theorem exec_inv {i : Instr} {s u : State} (h : exec i s = .next u) :
    BodyFrame (shapeOf i) (s.advance i.length) u ∨
      (∃ k ∈ (shapeOf i).faults, u = (s.advance i.length).raiseFault k s.pc) := by
  rcases exec_cases i s with ⟨t, hb, e⟩ | ⟨k, hb, e⟩ <;> rw [e] at h <;> cases h
  · exact .inl (body_frame (shapeOf_swap_ne i) hb)
  · exact .inr ⟨k, body_fault (shapeOf_swap_ne i) hb, rfl⟩

theorem exec_next (i : Instr) (s : State) : ∃ t, exec i s = .next t := by
  rcases exec_cases i s with ⟨t, _, e⟩ | ⟨k, _, e⟩
  · exact ⟨_, e⟩
  · exact ⟨_, e⟩

end Sys2Proof.Machine
end

