-- ==== Sys2Proof/Laws/Step.lean ====
section
/-! SUPPORT. Everything a step can do (spec/44_sequencer.md R252 to R255). -/

namespace Sys2Proof.Machine

theorem retire_faulted {s : State} (h : s.status = .haltedFault) : s.retire = s := by
  simp only [State.retire, h]

theorem retire_halted {s : State} (h : s.status = .haltedNormal) : s.retire = s.countStep := by
  simp only [State.retire, h]

theorem retire_running {s : State} (h : s.status = .running) (hb : s.steps + 1 ≤ s.stepBudget) :
    s.retire = s.countStep := by
  simp only [State.retire, h, gt_iff_lt, Nat.not_lt.2 hb, if_false]

theorem retire_over {s : State} (h : s.status = .running) (hb : s.stepBudget < s.steps + 1) :
    s.retire = s.countStep.raiseFault .stepBudgetExceeded s.pc := by
  simp only [State.retire, h, gt_iff_lt, hb, if_true]

/-- Everything the close of a step can do. -/
theorem retire_cases (s : State) :
    (s.status = .haltedFault ∧ s.retire = s) ∨ (s.status = .haltedNormal ∧ s.retire = s.countStep) ∨
      (s.status = .running ∧ s.steps + 1 ≤ s.stepBudget ∧ s.retire = s.countStep) ∨
      (s.status = .running ∧ s.stepBudget < s.steps + 1 ∧
        s.retire = s.countStep.raiseFault .stepBudgetExceeded s.pc) := by
  cases h : s.status with
  | haltedFault => exact .inl ⟨rfl, retire_faulted h⟩
  | haltedNormal => exact .inr (.inl ⟨rfl, retire_halted h⟩)
  | running =>
    by_cases hb : s.steps + 1 ≤ s.stepBudget
    · exact .inr (.inr (.inl ⟨rfl, hb, retire_running h hb⟩))
    · exact .inr (.inr (.inr ⟨rfl, Nat.lt_of_not_le hb, retire_over h (Nat.lt_of_not_le hb)⟩))

theorem step_ended {s : State} (h : s.status ≠ .running) : step s = .fault .runEnded := by
  cases hs : s.status <;> simp_all [step]

theorem step_instr {s u : State} {i : Instr} (h : s.status = .running) (hd : decodeAt s.code s.pc = .instr i)
    (he : exec i s = .next u) : step s = .next u.retire := by
  simp only [step, h, hd, he, retireOutcome]

theorem execSyntheticStop_eq (s : State) : execSyntheticStop s = .next s.stop := rfl

theorem step_syntheticStop {s : State} (h : s.status = .running) (hd : decodeAt s.code s.pc = .syntheticStop) :
    step s = .next s.stop.countStep := by
  simp only [step, h, hd, execSyntheticStop_eq, retireOutcome, retire_halted (State.stop_status s)]

theorem step_invalid {s : State} {b : Byte} (h : s.status = .running) (hd : decodeAt s.code s.pc = .invalidOpcode b) :
    step s = .next ((s.advance 1).raiseFault .invalidOpcode s.pc) := by
  simp only [step, h, hd]

/-- The inversion of step: a next state comes from a running one, by the instruction decoded at pc, the synthetic STOP, or an
unregistered byte. -/
theorem step_inv {s t : State} (h : step s = .next t) :
    s.status = .running ∧
      ((∃ i u, decodeAt s.code s.pc = .instr i ∧ exec i s = .next u ∧ t = u.retire) ∨
        (decodeAt s.code s.pc = .syntheticStop ∧ s.code.length ≤ s.pc ∧ t = s.stop.countStep) ∨
        (∃ b, decodeAt s.code s.pc = .invalidOpcode b ∧ s.pc < s.code.length ∧
          t = (s.advance 1).raiseFault .invalidOpcode s.pc)) := by
  have hr : s.status = .running := by
    by_contra hc; rw [step_ended hc] at h; cases h
  refine ⟨hr, ?_⟩
  rcases decodeAt_cases s.code s.pc with ⟨hl, hd⟩ | ⟨hl, _, hd⟩ | ⟨r, hl, _, hd⟩
  · rw [step_syntheticStop hr hd] at h; cases h
    exact .inr (.inl ⟨hd, hl, rfl⟩)
  · rw [step_invalid hr hd] at h; cases h
    exact .inr (.inr ⟨_, hd, hl, rfl⟩)
  · obtain ⟨u, hu⟩ := exec_next (r.make (BitVec.ofNat 256 (readBE s.code (s.pc + 1) r.width))) s
    rw [step_instr hr hd hu] at h; cases h
    exact .inl ⟨_, u, hd, hu, rfl⟩

/-- The close of a step leaves pc alone. -/
@[simp] theorem retire_pc (u : State) : u.retire.pc = u.pc := by
  rcases retire_cases u with ⟨_, e⟩ | ⟨_, e⟩ | ⟨_, _, e⟩ | ⟨_, _, e⟩ <;> rw [e] <;> rfl

/-- A step that closes without a fault ran an instruction without one and only counted it (R254). -/
theorem retire_notFaulted {u : State} (h : u.retire.NotFaulted) : u.NotFaulted ∧ u.retire = u.countStep := by
  rcases retire_cases u with ⟨a, e⟩ | ⟨a, e⟩ | ⟨a, _, e⟩ | ⟨_, _, e⟩
  · exact absurd a (e ▸ h)
  · exact ⟨by simp [State.NotFaulted, a], e⟩
  · exact ⟨by simp [State.NotFaulted, a], e⟩
  · exact absurd rfl (e ▸ h)

/-- The close of a step writes nothing that is fixed for the run. -/
theorem retire_sameRun (u : State) : u.SameRun u.retire := by
  rcases retire_cases u with ⟨a, e⟩ | ⟨a, e⟩ | ⟨a, hb, e⟩ | ⟨a, hb, e⟩ <;> rw [e] <;>
    exact ⟨rfl, rfl, rfl, rfl, rfl, rfl⟩

/-- Memory of an invariant state that has not faulted is well-formed (R24). -/
theorem inv_memWf {s : State} (hi : s.Inv) (h : s.NotFaulted) : s.mem.wf := ⟨hi.memCanonical, hi.memLen h⟩

/-- Fault entry keeps the invariant, whatever the state it is taken from holds, as long as that state is of the same run. -/
theorem raiseFault_inv {s t : State} {k : FaultKind} {p : Nat} (hi : s.Inv) (h : s.SameRun t)
    (hpc : t.pc ≤ t.code.length + 32) : (t.raiseFault k p).Inv := by
  obtain ⟨hc, _, hj, hm, hx, _⟩ := h
  have faulted : ∀ {P : Prop}, (t.raiseFault k p).status ≠ .haltedFault → P := fun h => absurd rfl h
  have running : ∀ {P : Prop}, (t.raiseFault k p).status = .running → P := fun h => by simp at h
  exact ⟨(free_wf _ _).1.1, faulted, by simpa [hm] using hi.capacity, by simpa [hc, hx] using hi.codeBound,
    by simpa [hj, hc] using hi.jdestScan, hpc, faulted, faulted, faulted, running, faulted, running⟩

/-- A running state has a next state (R256). -/
theorem step_next_of_running {s : State} (h : s.status = .running) : ∃ t, step s = .next t := by
  rcases decodeAt_cases s.code s.pc with ⟨_, hd⟩ | ⟨_, _, hd⟩ | ⟨r, _, _, hd⟩
  · exact ⟨_, step_syntheticStop h hd⟩
  · exact ⟨_, step_invalid h hd⟩
  · obtain ⟨u, hu⟩ := exec_next (r.make (BitVec.ofNat 256 (readBE s.code (s.pc + 1) r.width))) s
    exact ⟨_, step_instr h hd hu⟩

end Sys2Proof.Machine
end

