-- ==== Sys2Proof/Tests/Slice0.lean ====
section
/-! SUPPORT. Tests of the model against values taken from spec/95_test_vectors.md and the examples of the rules, and a witness
for the hypotheses of every statement that has some. -/

namespace Sys2Proof.Machine.Test

/-! ### Helpers -/

/-- A running state with 4096 bytes of memory capacity and a budget of 100 (95_test_vectors.md: MEM_CAPACITY at least 4096). -/
def at0 (code : List Byte) (stack : List Word) : State :=
  { State.initial 4096 100 100 code [] with stack := stack }

/-- The same with pc at an offset. -/
def atPc (code : List Byte) (pc : Nat) (stack : List Word) : State := { at0 code stack with pc := pc }

/-- M = 2^256 - 1. -/
def M : Word := BitVec.allOnes 256

/-- Stack (top first) and pc after one step that did not fault. -/
def stepStack (s : State) : Option (List Word × Nat) :=
  match step s with
  | .next t => if t.status = .haltedFault then none else some (t.stack, t.pc)
  | .fault _ => none
  | .refused _ => none

/-- Fault kind and fault_pc after one step that faulted. -/
def stepFault (s : State) : Option (FaultKind × Nat) :=
  match step s with
  | .next t => if t.status = .haltedFault then some (t.faultKind, t.faultPc) else none
  | .fault _ => none
  | .refused _ => none

/-- Status, step counter and return buffer after one step. -/
def stepEnd (s : State) : Option (RunStatus × Nat × List Byte) :=
  match step s with
  | .next t => if t.status = .haltedFault then none else some (t.status, t.steps, t.ret)
  | .fault _ => none
  | .refused _ => none

/-- MLEN and the bytes at given addresses after one step. -/
def stepMem (s : State) (as : List Nat) : Option (Nat × List Byte) :=
  match step s with
  | .next t => some (t.mem.len, as.map fun a => t.mem.load8 a)
  | .fault _ => none
  | .refused _ => none

/-- Whether an instruction is refused by the well-formedness check. -/
def illFormed (i : Instr) : Bool := !i.wellFormed

/-! ### Well-formedness: a PUSHn immediate of 256^n is refused, 256^n - 1 is not (R88) -/

theorem test_wellFormed_refuses :
      illFormed (.push1 (BitVec.ofNat 256 (256 ^ 1))) = true ∧
      illFormed (.push2 (BitVec.ofNat 256 (256 ^ 2))) = true ∧
      illFormed (.push3 (BitVec.ofNat 256 (256 ^ 3))) = true ∧
      illFormed (.push4 (BitVec.ofNat 256 (256 ^ 4))) = true ∧
      illFormed (.push5 (BitVec.ofNat 256 (256 ^ 5))) = true ∧
      illFormed (.push6 (BitVec.ofNat 256 (256 ^ 6))) = true ∧
      illFormed (.push7 (BitVec.ofNat 256 (256 ^ 7))) = true ∧
      illFormed (.push8 (BitVec.ofNat 256 (256 ^ 8))) = true ∧
      illFormed (.push9 (BitVec.ofNat 256 (256 ^ 9))) = true ∧
      illFormed (.push10 (BitVec.ofNat 256 (256 ^ 10))) = true ∧
      illFormed (.push11 (BitVec.ofNat 256 (256 ^ 11))) = true ∧
      illFormed (.push12 (BitVec.ofNat 256 (256 ^ 12))) = true ∧
      illFormed (.push13 (BitVec.ofNat 256 (256 ^ 13))) = true ∧
      illFormed (.push14 (BitVec.ofNat 256 (256 ^ 14))) = true ∧
      illFormed (.push15 (BitVec.ofNat 256 (256 ^ 15))) = true ∧
      illFormed (.push16 (BitVec.ofNat 256 (256 ^ 16))) = true ∧
      illFormed (.push17 (BitVec.ofNat 256 (256 ^ 17))) = true ∧
      illFormed (.push18 (BitVec.ofNat 256 (256 ^ 18))) = true ∧
      illFormed (.push19 (BitVec.ofNat 256 (256 ^ 19))) = true ∧
      illFormed (.push20 (BitVec.ofNat 256 (256 ^ 20))) = true ∧
      illFormed (.push21 (BitVec.ofNat 256 (256 ^ 21))) = true ∧
      illFormed (.push22 (BitVec.ofNat 256 (256 ^ 22))) = true ∧
      illFormed (.push23 (BitVec.ofNat 256 (256 ^ 23))) = true ∧
      illFormed (.push24 (BitVec.ofNat 256 (256 ^ 24))) = true ∧
      illFormed (.push25 (BitVec.ofNat 256 (256 ^ 25))) = true ∧
      illFormed (.push26 (BitVec.ofNat 256 (256 ^ 26))) = true ∧
      illFormed (.push27 (BitVec.ofNat 256 (256 ^ 27))) = true ∧
      illFormed (.push28 (BitVec.ofNat 256 (256 ^ 28))) = true ∧
      illFormed (.push29 (BitVec.ofNat 256 (256 ^ 29))) = true ∧
      illFormed (.push30 (BitVec.ofNat 256 (256 ^ 30))) = true ∧
      illFormed (.push31 (BitVec.ofNat 256 (256 ^ 31))) = true := by decide

theorem test_wellFormed_accepts :
      illFormed (.push1 (BitVec.ofNat 256 (256 ^ 1 - 1))) = false ∧
      illFormed (.push2 (BitVec.ofNat 256 (256 ^ 2 - 1))) = false ∧
      illFormed (.push3 (BitVec.ofNat 256 (256 ^ 3 - 1))) = false ∧
      illFormed (.push4 (BitVec.ofNat 256 (256 ^ 4 - 1))) = false ∧
      illFormed (.push5 (BitVec.ofNat 256 (256 ^ 5 - 1))) = false ∧
      illFormed (.push6 (BitVec.ofNat 256 (256 ^ 6 - 1))) = false ∧
      illFormed (.push7 (BitVec.ofNat 256 (256 ^ 7 - 1))) = false ∧
      illFormed (.push8 (BitVec.ofNat 256 (256 ^ 8 - 1))) = false ∧
      illFormed (.push9 (BitVec.ofNat 256 (256 ^ 9 - 1))) = false ∧
      illFormed (.push10 (BitVec.ofNat 256 (256 ^ 10 - 1))) = false ∧
      illFormed (.push11 (BitVec.ofNat 256 (256 ^ 11 - 1))) = false ∧
      illFormed (.push12 (BitVec.ofNat 256 (256 ^ 12 - 1))) = false ∧
      illFormed (.push13 (BitVec.ofNat 256 (256 ^ 13 - 1))) = false ∧
      illFormed (.push14 (BitVec.ofNat 256 (256 ^ 14 - 1))) = false ∧
      illFormed (.push15 (BitVec.ofNat 256 (256 ^ 15 - 1))) = false ∧
      illFormed (.push16 (BitVec.ofNat 256 (256 ^ 16 - 1))) = false ∧
      illFormed (.push17 (BitVec.ofNat 256 (256 ^ 17 - 1))) = false ∧
      illFormed (.push18 (BitVec.ofNat 256 (256 ^ 18 - 1))) = false ∧
      illFormed (.push19 (BitVec.ofNat 256 (256 ^ 19 - 1))) = false ∧
      illFormed (.push20 (BitVec.ofNat 256 (256 ^ 20 - 1))) = false ∧
      illFormed (.push21 (BitVec.ofNat 256 (256 ^ 21 - 1))) = false ∧
      illFormed (.push22 (BitVec.ofNat 256 (256 ^ 22 - 1))) = false ∧
      illFormed (.push23 (BitVec.ofNat 256 (256 ^ 23 - 1))) = false ∧
      illFormed (.push24 (BitVec.ofNat 256 (256 ^ 24 - 1))) = false ∧
      illFormed (.push25 (BitVec.ofNat 256 (256 ^ 25 - 1))) = false ∧
      illFormed (.push26 (BitVec.ofNat 256 (256 ^ 26 - 1))) = false ∧
      illFormed (.push27 (BitVec.ofNat 256 (256 ^ 27 - 1))) = false ∧
      illFormed (.push28 (BitVec.ofNat 256 (256 ^ 28 - 1))) = false ∧
      illFormed (.push29 (BitVec.ofNat 256 (256 ^ 29 - 1))) = false ∧
      illFormed (.push30 (BitVec.ofNat 256 (256 ^ 30 - 1))) = false ∧
      illFormed (.push31 (BitVec.ofNat 256 (256 ^ 31 - 1))) = false ∧
      illFormed (.push32 (BitVec.ofNat 256 (256 ^ 32 - 1))) = false := by decide

/-! ### Decoding: the word of every row, written out from the encoding column of R84 and the layout of R81 -/

theorem test_decode_base :
    decode [0x00] = .instr .stop ∧
    decode [0x01] = .instr .add ∧
    decode [0x02] = .instr .mul ∧
    decode [0x03] = .instr .sub ∧
    decode [0x53] = .instr .mstore8 ∧
    decode [0x56] = .instr .jump ∧
    decode [0x57] = .instr .jumpi ∧
    decode [0x58] = .instr .pc ∧
    decode [0x59] = .instr .msize ∧
    decode [0x5B] = .instr .jumpdest ∧
    decode [0xF3] = .instr .ret := by decide

/-- PUSH1 to PUSH11: imm byte 0 is the most significant (R81, R125). -/
theorem test_decode_push_a :
    decode [0x60, 0x01] =
      .instr (.push1 0x01) ∧
    decode [0x61, 0x01, 0x02] =
      .instr (.push2 0x0102) ∧
    decode [0x62, 0x01, 0x02, 0x03] =
      .instr (.push3 0x010203) ∧
    decode [0x63, 0x01, 0x02, 0x03, 0x04] =
      .instr (.push4 0x01020304) ∧
    decode [0x64, 0x01, 0x02, 0x03, 0x04, 0x05] =
      .instr (.push5 0x0102030405) ∧
    decode [0x65, 0x01, 0x02, 0x03, 0x04, 0x05, 0x06] =
      .instr (.push6 0x010203040506) ∧
    decode [0x66, 0x01, 0x02, 0x03, 0x04, 0x05, 0x06, 0x07] =
      .instr (.push7 0x01020304050607) ∧
    decode [0x67, 0x01, 0x02, 0x03, 0x04, 0x05, 0x06, 0x07, 0x08] =
      .instr (.push8 0x0102030405060708) ∧
    decode [0x68, 0x01, 0x02, 0x03, 0x04, 0x05, 0x06, 0x07, 0x08, 0x09] =
      .instr (.push9 0x010203040506070809) ∧
    decode [0x69, 0x01, 0x02, 0x03, 0x04, 0x05, 0x06, 0x07, 0x08, 0x09, 0x0A] =
      .instr (.push10 0x0102030405060708090A) ∧
    decode [0x6A, 0x01, 0x02, 0x03, 0x04, 0x05, 0x06, 0x07, 0x08, 0x09, 0x0A, 0x0B] =
      .instr (.push11 0x0102030405060708090A0B) := by decide

/-- PUSH12 to PUSH22: imm byte 0 is the most significant (R81, R125). -/
theorem test_decode_push_b :
    decode [0x6B, 0x01, 0x02, 0x03, 0x04, 0x05, 0x06, 0x07, 0x08, 0x09, 0x0A, 0x0B, 0x0C] =
      .instr (.push12 0x0102030405060708090A0B0C) ∧
    decode [0x6C, 0x01, 0x02, 0x03, 0x04, 0x05, 0x06, 0x07, 0x08, 0x09, 0x0A, 0x0B, 0x0C, 0x0D] =
      .instr (.push13 0x0102030405060708090A0B0C0D) ∧
    decode [0x6D, 0x01, 0x02, 0x03, 0x04, 0x05, 0x06, 0x07, 0x08, 0x09, 0x0A, 0x0B, 0x0C, 0x0D, 0x0E] =
      .instr (.push14 0x0102030405060708090A0B0C0D0E) ∧
    decode [0x6E, 0x01, 0x02, 0x03, 0x04, 0x05, 0x06, 0x07, 0x08, 0x09, 0x0A, 0x0B, 0x0C, 0x0D, 0x0E, 0x0F] =
      .instr (.push15 0x0102030405060708090A0B0C0D0E0F) ∧
    decode [0x6F, 0x01, 0x02, 0x03, 0x04, 0x05, 0x06, 0x07, 0x08, 0x09, 0x0A, 0x0B, 0x0C, 0x0D, 0x0E, 0x0F, 0x10] =
      .instr (.push16 0x0102030405060708090A0B0C0D0E0F10) ∧
    decode [0x70, 0x01, 0x02, 0x03, 0x04, 0x05, 0x06, 0x07, 0x08, 0x09, 0x0A, 0x0B, 0x0C, 0x0D, 0x0E, 0x0F, 0x10, 0x11] =
      .instr (.push17 0x0102030405060708090A0B0C0D0E0F1011) ∧
    decode [0x71, 0x01, 0x02, 0x03, 0x04, 0x05, 0x06, 0x07, 0x08, 0x09, 0x0A, 0x0B, 0x0C, 0x0D, 0x0E, 0x0F, 0x10, 0x11, 0x12] =
      .instr (.push18 0x0102030405060708090A0B0C0D0E0F101112) ∧
    decode [0x72, 0x01, 0x02, 0x03, 0x04, 0x05, 0x06, 0x07, 0x08, 0x09, 0x0A, 0x0B, 0x0C, 0x0D, 0x0E, 0x0F, 0x10, 0x11, 0x12, 0x13] =
      .instr (.push19 0x0102030405060708090A0B0C0D0E0F10111213) ∧
    decode [0x73, 0x01, 0x02, 0x03, 0x04, 0x05, 0x06, 0x07, 0x08, 0x09, 0x0A, 0x0B, 0x0C, 0x0D, 0x0E, 0x0F, 0x10, 0x11, 0x12, 0x13, 0x14] =
      .instr (.push20 0x0102030405060708090A0B0C0D0E0F1011121314) ∧
    decode [0x74, 0x01, 0x02, 0x03, 0x04, 0x05, 0x06, 0x07, 0x08, 0x09, 0x0A, 0x0B, 0x0C, 0x0D, 0x0E, 0x0F, 0x10, 0x11, 0x12, 0x13, 0x14, 0x15] =
      .instr (.push21 0x0102030405060708090A0B0C0D0E0F101112131415) ∧
    decode [0x75, 0x01, 0x02, 0x03, 0x04, 0x05, 0x06, 0x07, 0x08, 0x09, 0x0A, 0x0B, 0x0C, 0x0D, 0x0E, 0x0F, 0x10, 0x11, 0x12, 0x13, 0x14, 0x15, 0x16] =
      .instr (.push22 0x0102030405060708090A0B0C0D0E0F10111213141516) := by decide

/-- PUSH23 to PUSH32: imm byte 0 is the most significant (R81, R125). -/
theorem test_decode_push_c :
    decode [0x76, 0x01, 0x02, 0x03, 0x04, 0x05, 0x06, 0x07, 0x08, 0x09, 0x0A, 0x0B, 0x0C, 0x0D, 0x0E, 0x0F, 0x10, 0x11, 0x12, 0x13, 0x14, 0x15, 0x16, 0x17] =
      .instr (.push23 0x0102030405060708090A0B0C0D0E0F1011121314151617) ∧
    decode [0x77, 0x01, 0x02, 0x03, 0x04, 0x05, 0x06, 0x07, 0x08, 0x09, 0x0A, 0x0B, 0x0C, 0x0D, 0x0E, 0x0F, 0x10, 0x11, 0x12, 0x13, 0x14, 0x15, 0x16, 0x17, 0x18] =
      .instr (.push24 0x0102030405060708090A0B0C0D0E0F101112131415161718) ∧
    decode [0x78, 0x01, 0x02, 0x03, 0x04, 0x05, 0x06, 0x07, 0x08, 0x09, 0x0A, 0x0B, 0x0C, 0x0D, 0x0E, 0x0F, 0x10, 0x11, 0x12, 0x13, 0x14, 0x15, 0x16, 0x17, 0x18, 0x19] =
      .instr (.push25 0x0102030405060708090A0B0C0D0E0F10111213141516171819) ∧
    decode [0x79, 0x01, 0x02, 0x03, 0x04, 0x05, 0x06, 0x07, 0x08, 0x09, 0x0A, 0x0B, 0x0C, 0x0D, 0x0E, 0x0F, 0x10, 0x11, 0x12, 0x13, 0x14, 0x15, 0x16, 0x17, 0x18, 0x19, 0x1A] =
      .instr (.push26 0x0102030405060708090A0B0C0D0E0F101112131415161718191A) ∧
    decode [0x7A, 0x01, 0x02, 0x03, 0x04, 0x05, 0x06, 0x07, 0x08, 0x09, 0x0A, 0x0B, 0x0C, 0x0D, 0x0E, 0x0F, 0x10, 0x11, 0x12, 0x13, 0x14, 0x15, 0x16, 0x17, 0x18, 0x19, 0x1A, 0x1B] =
      .instr (.push27 0x0102030405060708090A0B0C0D0E0F101112131415161718191A1B) ∧
    decode [0x7B, 0x01, 0x02, 0x03, 0x04, 0x05, 0x06, 0x07, 0x08, 0x09, 0x0A, 0x0B, 0x0C, 0x0D, 0x0E, 0x0F, 0x10, 0x11, 0x12, 0x13, 0x14, 0x15, 0x16, 0x17, 0x18, 0x19, 0x1A, 0x1B, 0x1C] =
      .instr (.push28 0x0102030405060708090A0B0C0D0E0F101112131415161718191A1B1C) ∧
    decode [0x7C, 0x01, 0x02, 0x03, 0x04, 0x05, 0x06, 0x07, 0x08, 0x09, 0x0A, 0x0B, 0x0C, 0x0D, 0x0E, 0x0F, 0x10, 0x11, 0x12, 0x13, 0x14, 0x15, 0x16, 0x17, 0x18, 0x19, 0x1A, 0x1B, 0x1C, 0x1D] =
      .instr (.push29 0x0102030405060708090A0B0C0D0E0F101112131415161718191A1B1C1D) ∧
    decode [0x7D, 0x01, 0x02, 0x03, 0x04, 0x05, 0x06, 0x07, 0x08, 0x09, 0x0A, 0x0B, 0x0C, 0x0D, 0x0E, 0x0F, 0x10, 0x11, 0x12, 0x13, 0x14, 0x15, 0x16, 0x17, 0x18, 0x19, 0x1A, 0x1B, 0x1C, 0x1D, 0x1E] =
      .instr (.push30 0x0102030405060708090A0B0C0D0E0F101112131415161718191A1B1C1D1E) ∧
    decode [0x7E, 0x01, 0x02, 0x03, 0x04, 0x05, 0x06, 0x07, 0x08, 0x09, 0x0A, 0x0B, 0x0C, 0x0D, 0x0E, 0x0F, 0x10, 0x11, 0x12, 0x13, 0x14, 0x15, 0x16, 0x17, 0x18, 0x19, 0x1A, 0x1B, 0x1C, 0x1D, 0x1E, 0x1F] =
      .instr (.push31 0x0102030405060708090A0B0C0D0E0F101112131415161718191A1B1C1D1E1F) ∧
    decode [0x7F, 0x01, 0x02, 0x03, 0x04, 0x05, 0x06, 0x07, 0x08, 0x09, 0x0A, 0x0B, 0x0C, 0x0D, 0x0E, 0x0F, 0x10, 0x11, 0x12, 0x13, 0x14, 0x15, 0x16, 0x17, 0x18, 0x19, 0x1A, 0x1B, 0x1C, 0x1D, 0x1E, 0x1F, 0x20] =
      .instr (.push32 0x0102030405060708090A0B0C0D0E0F101112131415161718191A1B1C1D1E1F20) := by decide

theorem test_decode_dup :
    decode [0x80] = .instr .dup1 ∧
    decode [0x81] = .instr .dup2 ∧
    decode [0x82] = .instr .dup3 ∧
    decode [0x83] = .instr .dup4 ∧
    decode [0x84] = .instr .dup5 ∧
    decode [0x85] = .instr .dup6 ∧
    decode [0x86] = .instr .dup7 ∧
    decode [0x87] = .instr .dup8 ∧
    decode [0x88] = .instr .dup9 ∧
    decode [0x89] = .instr .dup10 ∧
    decode [0x8A] = .instr .dup11 ∧
    decode [0x8B] = .instr .dup12 ∧
    decode [0x8C] = .instr .dup13 ∧
    decode [0x8D] = .instr .dup14 ∧
    decode [0x8E] = .instr .dup15 ∧
    decode [0x8F] = .instr .dup16 := by decide

theorem test_decode_swap :
    decode [0x90] = .instr .swap1 ∧
    decode [0x91] = .instr .swap2 ∧
    decode [0x92] = .instr .swap3 ∧
    decode [0x93] = .instr .swap4 ∧
    decode [0x94] = .instr .swap5 ∧
    decode [0x95] = .instr .swap6 ∧
    decode [0x96] = .instr .swap7 ∧
    decode [0x97] = .instr .swap8 ∧
    decode [0x98] = .instr .swap9 ∧
    decode [0x99] = .instr .swap10 ∧
    decode [0x9A] = .instr .swap11 ∧
    decode [0x9B] = .instr .swap12 ∧
    decode [0x9C] = .instr .swap13 ∧
    decode [0x9D] = .instr .swap14 ∧
    decode [0x9E] = .instr .swap15 ∧
    decode [0x9F] = .instr .swap16 := by decide

/-- Bytes that R85 lists as illegal, at the ends of its ranges, and an immediate cut short by the end of code (R82). -/
theorem test_decode_edges :
    [0x04, 0x52, 0x54, 0x55, 0x5A, 0x5C, 0x5F, 0xA0, 0xF2, 0xF4, 0xFF].map (fun b => decode [b]) =
      [0x04, 0x52, 0x54, 0x55, 0x5A, 0x5C, 0x5F, 0xA0, 0xF2, 0xF4, 0xFF].map Decoded.invalidOpcode ∧
    decode [0x7F, 0x01, 0x02] = .instr (.push32 (BitVec.ofNat 256 (0x0102 * 2 ^ 240))) ∧
    decode [0x60] = .instr (.push1 0) ∧ decode [] = .syntheticStop := by decide

/-- The table's numbering: the opcode byte is bits 7..0 and the first immediate byte bits 15..8. -/
theorem test_decodeTableWord :
    decodeTableWord 8 0x01 = some .add ∧ decodeTableWord 16 0x2A60 = some (.push1 0x2A) ∧
      decodeTableWord 24 0x020161 = some (.push2 0x0102) ∧ decodeTableWord 8 0x5F = none ∧
      decodeTableWord 8 0x61 = some (.push2 0) := by decide

/-- The fetch word is the instruction the next step after reset runs. -/
theorem test_withFetchWord :
    stepStack (State.reset.withFetchWord 24 0x020161) = some ([0x0102], 3) ∧
      stepFault (State.reset.withFetchWord 8 0x01) = some (.stackUnderflow, 0) := by decide

/-! ### Assembler (R88): the example of the rule, and a label -/

theorem test_assemble :
    assembleText "PUSH1 1, PUSH1 2, ADD, STOP".toList = .ok [0x60, 0x01, 0x60, 0x02, 0x01, 0x00] ∧
      assembleText "PUSH1 3 loop: JUMPDEST PUSH1 1 SWAP1 SUB DUP1 PUSH1 loop JUMPI STOP".toList =
        .ok [0x60, 0x03, 0x5B, 0x60, 0x01, 0x90, 0x03, 0x80, 0x60, 0x02, 0x57, 0x00] ∧
      assembleText "PUSH1 0x100".toList = .error .immediateTooLarge := by decide

/-! ### Arithmetic (95_test_vectors.md D-ALU) -/

theorem test_add : stepStack (at0 [0x01] [1, M]) = some ([0], 1) ∧ stepStack (at0 [0x01] [2, 1]) = some ([3], 1) := by decide
theorem test_add_underflow : stepFault (atPc [0x60, 0x01, 0x01] 2 [1]) = some (.stackUnderflow, 2) := by decide
theorem test_mul : stepStack (at0 [0x02] [M, M]) = some ([1], 1) ∧ stepStack (at0 [0x02] [4, 3]) = some ([12], 1) := by decide
theorem test_mul_underflow : stepFault (atPc [0x60, 0x01, 0x02] 2 [1]) = some (.stackUnderflow, 2) := by decide
theorem test_sub : stepStack (at0 [0x03] [5, 3]) = some ([2], 1) ∧ stepStack (at0 [0x03] [3, 5]) = some ([M - 1], 1) := by decide
theorem test_sub_underflow : stepFault (at0 [0x03] []) = some (.stackUnderflow, 0) := by decide
theorem test_alu :
    alu .sub 0 1 = M ∧ alu .sub 0 M = 1 ∧ alu .mul M 2 = M - 1 ∧
      alu .mul (BitVec.ofNat 256 (2 ^ 128)) (BitVec.ofNat 256 (2 ^ 128)) = 0 ∧
      alu .add (BitVec.ofNat 256 (2 ^ 255)) (BitVec.ofNat 256 (2 ^ 255)) = 0 := by decide

/-! ### Stack commands and instructions (D-STK, D-PUSH, D-DUP, D-SWAP) -/

theorem test_stk :
    stkUnit (.push 5) [] = (.ok, [5]) ∧ stkUnit .pop [] = (.err .stackUnderflow, []) ∧
      stkUnit .pop [5, 4] = (.okWord 5, [4]) ∧ stkUnit (.peek 1) [5] = (.err .stackUnderflow, [5]) ∧
      stkUnit (.peek 2) [3, 2, 1] = (.okWord 1, [3, 2, 1]) ∧ stkUnit (.swap 1) [2, 1] = (.ok, [1, 2]) ∧
      stkUnit (.swap 2) [3, 2, 1] = (.ok, [1, 2, 3]) ∧ stkUnit (.swap 1) [1] = (.err .stackUnderflow, [1]) ∧
      stkUnit (.swap 0) [3, 2, 1] = (.err .invalidStackIndex, [3, 2, 1]) ∧
      stkUnit (.swap 0) [] = (.err .invalidStackIndex, []) := by decide

set_option maxRecDepth 20000 in
theorem test_stk_full :
    (stkUnit (.push 9) (List.replicate 1024 0)).1 = .err .stackOverflow ∧
      (stkUnit (.push 9) (List.replicate 1023 0)).1 = .ok := by decide

/-- The code of PUSHn with immediate bytes 01 02 ... n, as the examples of R126 to R157 have it. -/
def pushCode (n : Nat) : List Byte := BitVec.ofNat 8 (0x5F + n) :: (List.range n).map fun j => BitVec.ofNat 8 (j + 1)

set_option maxRecDepth 20000 in
/-- One step of PUSH1 to PUSH16 on the empty stack (the examples of R126 to R141). -/
theorem test_push_low :
    (List.range 16).map (fun k => stepStack (at0 (pushCode (k + 1)) [])) =
      [some ([0x01], 2),
      some ([0x0102], 3),
      some ([0x010203], 4),
      some ([0x01020304], 5),
      some ([0x0102030405], 6),
      some ([0x010203040506], 7),
      some ([0x01020304050607], 8),
      some ([0x0102030405060708], 9),
      some ([0x010203040506070809], 10),
      some ([0x0102030405060708090A], 11),
      some ([0x0102030405060708090A0B], 12),
      some ([0x0102030405060708090A0B0C], 13),
      some ([0x0102030405060708090A0B0C0D], 14),
      some ([0x0102030405060708090A0B0C0D0E], 15),
      some ([0x0102030405060708090A0B0C0D0E0F], 16),
      some ([0x0102030405060708090A0B0C0D0E0F10], 17)] := by decide

set_option maxRecDepth 20000 in
/-- One step of PUSH17 to PUSH32 on the empty stack (the examples of R142 to R157). -/
theorem test_push_high :
    (List.range 16).map (fun k => stepStack (at0 (pushCode (k + 17)) [])) =
      [some ([0x0102030405060708090A0B0C0D0E0F1011], 18),
      some ([0x0102030405060708090A0B0C0D0E0F101112], 19),
      some ([0x0102030405060708090A0B0C0D0E0F10111213], 20),
      some ([0x0102030405060708090A0B0C0D0E0F1011121314], 21),
      some ([0x0102030405060708090A0B0C0D0E0F101112131415], 22),
      some ([0x0102030405060708090A0B0C0D0E0F10111213141516], 23),
      some ([0x0102030405060708090A0B0C0D0E0F1011121314151617], 24),
      some ([0x0102030405060708090A0B0C0D0E0F101112131415161718], 25),
      some ([0x0102030405060708090A0B0C0D0E0F10111213141516171819], 26),
      some ([0x0102030405060708090A0B0C0D0E0F101112131415161718191A], 27),
      some ([0x0102030405060708090A0B0C0D0E0F101112131415161718191A1B], 28),
      some ([0x0102030405060708090A0B0C0D0E0F101112131415161718191A1B1C], 29),
      some ([0x0102030405060708090A0B0C0D0E0F101112131415161718191A1B1C1D], 30),
      some ([0x0102030405060708090A0B0C0D0E0F101112131415161718191A1B1C1D1E], 31),
      some ([0x0102030405060708090A0B0C0D0E0F101112131415161718191A1B1C1D1E1F], 32),
      some ([0x0102030405060708090A0B0C0D0E0F101112131415161718191A1B1C1D1E1F20], 33)] := by decide

theorem test_push_past_end :
    stepStack (at0 [0x60] []) = some ([0], 2) ∧ stepStack (at0 [0x7F, 0x5B] []) = some ([BitVec.ofNat 256 (0x5B * 2 ^ 248)], 33) ∧
      jumpDests [0x7F, 0x5B] = [] ∧ jumpDests [0x61, 0x5B, 0x5B, 0x5B] = [3] := by decide

set_option maxRecDepth 20000 in
theorem test_push_full : stepFault (at0 [0x60, 0x2A] (List.replicate 1024 0)) = some (.stackOverflow, 0) := by decide

/-- A stack of n Words, the top 1, the bottom n. -/
def words (n : Nat) : List Word := (List.range n).map fun j => BitVec.ofNat 256 (j + 1)

set_option maxRecDepth 20000 in
/-- DUPn on n Words, top 1, bottom n: the examples of R159 to R174. -/
theorem test_dup :
    (List.range 16).map (fun k => stepStack (at0 [BitVec.ofNat 8 (0x80 + k)] (words (k + 1)))) =
      [some ([1, 1], 1),
      some ([2, 1, 2], 1),
      some ([3, 1, 2, 3], 1),
      some ([4, 1, 2, 3, 4], 1),
      some ([5, 1, 2, 3, 4, 5], 1),
      some ([6, 1, 2, 3, 4, 5, 6], 1),
      some ([7, 1, 2, 3, 4, 5, 6, 7], 1),
      some ([8, 1, 2, 3, 4, 5, 6, 7, 8], 1),
      some ([9, 1, 2, 3, 4, 5, 6, 7, 8, 9], 1),
      some ([10, 1, 2, 3, 4, 5, 6, 7, 8, 9, 10], 1),
      some ([11, 1, 2, 3, 4, 5, 6, 7, 8, 9, 10, 11], 1),
      some ([12, 1, 2, 3, 4, 5, 6, 7, 8, 9, 10, 11, 12], 1),
      some ([13, 1, 2, 3, 4, 5, 6, 7, 8, 9, 10, 11, 12, 13], 1),
      some ([14, 1, 2, 3, 4, 5, 6, 7, 8, 9, 10, 11, 12, 13, 14], 1),
      some ([15, 1, 2, 3, 4, 5, 6, 7, 8, 9, 10, 11, 12, 13, 14, 15], 1),
      some ([16, 1, 2, 3, 4, 5, 6, 7, 8, 9, 10, 11, 12, 13, 14, 15, 16], 1)] := by decide

set_option maxRecDepth 20000 in
theorem test_dup_faults :
    stepFault (at0 [0x80] []) = some (.stackUnderflow, 0) ∧
      stepFault (at0 [0x8F] (List.replicate 15 0)) = some (.stackUnderflow, 0) ∧
      stepFault (at0 [0x80] (List.replicate 1024 0)) = some (.stackOverflow, 0) := by decide

set_option maxRecDepth 20000 in
/-- SWAPn on n + 1 Words, top 1, bottom n + 1: the examples of R176 to R191. -/
theorem test_swap :
    (List.range 16).map (fun k => stepStack (at0 [BitVec.ofNat 8 (0x90 + k)] (words (k + 2)))) =
      [some ([2, 1], 1),
      some ([3, 2, 1], 1),
      some ([4, 2, 3, 1], 1),
      some ([5, 2, 3, 4, 1], 1),
      some ([6, 2, 3, 4, 5, 1], 1),
      some ([7, 2, 3, 4, 5, 6, 1], 1),
      some ([8, 2, 3, 4, 5, 6, 7, 1], 1),
      some ([9, 2, 3, 4, 5, 6, 7, 8, 1], 1),
      some ([10, 2, 3, 4, 5, 6, 7, 8, 9, 1], 1),
      some ([11, 2, 3, 4, 5, 6, 7, 8, 9, 10, 1], 1),
      some ([12, 2, 3, 4, 5, 6, 7, 8, 9, 10, 11, 1], 1),
      some ([13, 2, 3, 4, 5, 6, 7, 8, 9, 10, 11, 12, 1], 1),
      some ([14, 2, 3, 4, 5, 6, 7, 8, 9, 10, 11, 12, 13, 1], 1),
      some ([15, 2, 3, 4, 5, 6, 7, 8, 9, 10, 11, 12, 13, 14, 1], 1),
      some ([16, 2, 3, 4, 5, 6, 7, 8, 9, 10, 11, 12, 13, 14, 15, 1], 1),
      some ([17, 2, 3, 4, 5, 6, 7, 8, 9, 10, 11, 12, 13, 14, 15, 16, 1], 1)] := by decide

theorem test_swap_faults :
    stepFault (atPc [0x60, 0x01, 0x90] 2 [1]) = some (.stackUnderflow, 2) ∧
      stepFault (at0 [0x9F] (List.replicate 16 0)) = some (.stackUnderflow, 0) := by decide

/-! ### Memory (W5, W6, W7, W15, D-MEM, D-MEMOPS) -/

/-- MemStore8 at k on empty memory, and the length after it (W5). -/
theorem test_store8_length :
    [0, 31, 32, 63, 64, 100].map (fun k => (memUnit 4096 (.store8 k 1) Memory.empty).2.len) = [32, 32, 64, 64, 96, 128] := by decide

theorem test_store8_faults :
    memUnit 4096 (.store8 5 256) { cells := [], len := 32 } = (.err .invalidMemoryValue, { cells := [], len := 32 }) ∧
      memUnit 4096 (.store8 0 256) Memory.empty = (.err .invalidMemoryValue, Memory.empty) ∧
      memUnit 4096 (.store8 4096 1) Memory.empty = (.err .memoryLimit, Memory.empty) ∧
      (memUnit 4096 (.store8 4095 1) Memory.empty).1 = .ok := by decide

theorem test_loadRange :
    memUnit 4096 (.loadRange 30 4) Memory.empty = (.okBytes [0, 0, 0, 0], { cells := [], len := 64 }) ∧
      memUnit 4096 (.loadRange 0 0) Memory.empty = (.okBytes [], Memory.empty) ∧
      memUnit 4096 (.loadRange M.toNat 0) Memory.empty = (.okBytes [], Memory.empty) ∧
      memUnit 4096 (.loadRange M.toNat 1) Memory.empty = (.err .memoryLimit, Memory.empty) ∧
      memUnit 4096 (.load8 1000) { cells := [], len := 32 } = (.okByte 0, { cells := [], len := 32 }) := by decide

theorem test_storeWord :
    let m := (memUnit 4096 (.storeWord 1 0x0102030405060708090A0B0C0D0E0F101112131415161718191A1B1C1D1E1F20) Memory.empty).2
    m.load8 1 = 0x01 ∧ m.load8 32 = 0x20 ∧ m.load8 0 = 0 ∧ m.len = 64 ∧ m.wordCount = 2 := by decide

theorem test_code_word :
    (at0 [0x01, 0x02] []).codeWord 1 = BitVec.ofNat 256 (0x02 * 2 ^ 248) ∧
      (at0 [0x01, 0x02] []).codeWord 0 = BitVec.ofNat 256 (0x0102 * 2 ^ 240) ∧
      (at0 [0x01, 0x02] []).codeWord 2 = 0 ∧ (at0 [0x01, 0x02] []).codeByte 1 = 0x02 ∧
      (at0 [0x01, 0x02] []).codeByte 2 = 0 := by decide

theorem test_mstore8 :
    stepMem (at0 [0x53] [40, 0x1AA]) [39, 40, 41, 63] = some (64, [0, 0xAA, 0, 0]) ∧
      stepStack (at0 [0x53] [40, 0x1AA]) = some ([], 1) := by decide
theorem test_mstore8_faults :
    stepFault (at0 [0x53] [M, 1]) = some (.memoryLimit, 0) ∧
      stepFault (atPc [0x60, 0x01, 0x53] 2 [1]) = some (.stackUnderflow, 2) := by decide
theorem test_msize :
    stepStack (at0 [0x59] []) = some ([0], 1) ∧
      stepStack { at0 [0x59] [] with mem := { cells := [(40, 0xAA)], len := 64 } } = some ([64], 1) := by decide

/-! ### Control (D-CTRL) -/

theorem test_pc : stepStack (atPc [0x60, 0x00, 0x58] 2 [0]) = some ([2, 0], 3) := by decide
theorem test_jump : stepStack (atPc [0x60, 0x03, 0x56, 0x5B, 0x00] 2 [3]) = some ([], 3) := by decide
theorem test_jump_faults :
    stepFault (atPc [0x60, 0x01, 0x56] 2 [1]) = some (.invalidJumpDestination, 2) ∧
      stepFault (at0 [0x56] []) = some (.stackUnderflow, 0) ∧
      stepFault (at0 [0x56, 0x5B] [BitVec.ofNat 256 (2 ^ 64 + 1)]) = some (.invalidJumpDestination, 0) := by decide
theorem test_jumpi :
    stepStack (atPc [0x60, 0x01, 0x60, 0x06, 0x57, 0x00, 0x5B, 0x00] 4 [6, 1]) = some ([], 6) ∧
      stepStack (atPc [0x60, 0x00, 0x60, 0x07, 0x57, 0x00] 4 [7, 0]) = some ([], 5) := by decide
theorem test_jumpi_faults :
    stepFault (atPc [0x60, 0x01, 0x60, 0x07, 0x57, 0x00] 4 [7, 1]) = some (.invalidJumpDestination, 4) ∧
      stepFault (atPc [0x60, 0x01, 0x57] 2 [1]) = some (.stackUnderflow, 2) := by decide
theorem test_jumpdest : stepStack (at0 [0x5B, 0x00] [7]) = some ([7], 1) := by decide
theorem test_return :
    stepEnd (at0 [0xF3] [30, 4]) = some (.haltedNormal, 1, [0, 0, 0, 0]) ∧ stepMem (at0 [0xF3] [30, 4]) [] = some (64, []) ∧
      stepEnd (at0 [0xF3] [M, 0]) = some (.haltedNormal, 1, []) ∧ stepMem (at0 [0xF3] [M, 0]) [] = some (0, []) := by decide
theorem test_return_memory :
    stepEnd { at0 [0xF3] [32, 2] with mem := { cells := [(0, 0x40), (33, 0xAB)], len := 64 } } =
        some (.haltedNormal, 1, [0x00, 0xAB]) ∧
      stepFault (at0 [0xF3] [M, 1]) = some (.memoryLimit, 0) := by decide
theorem test_stop : stepEnd (at0 [0x00] [3]) = some (.haltedNormal, 1, []) ∧ stepStack (at0 [0x00] [3]) = some ([3], 1) := by decide

/-! ### The step (D-SEQ, W8, W9) -/

theorem test_synthetic_stop :
    stepEnd (at0 [] []) = some (.haltedNormal, 1, []) ∧ stepStack (atPc [0x60] 2 [0]) = some ([0], 2) := by decide
theorem test_invalid_opcode :
    stepFault (at0 [0x5F] []) = some (.invalidOpcode, 0) ∧
      stepFault (atPc [0x60, 0x01, 0xFE] 2 [1]) = some (.invalidOpcode, 2) := by decide
theorem test_budget :
    stepFault { atPc [0x60, 0x01, 0x60, 0x02, 0x01, 0x00] 4 [2, 1] with steps := 2, stepBudget := 2 } =
        some (.stepBudgetExceeded, 5) ∧
      stepFault { at0 [0x60, 0x01] [] with stepBudget := 0 } = some (.stepBudgetExceeded, 2) ∧
      stepEnd { at0 [0x00] [] with stepBudget := 0 } = some (.haltedNormal, 1, []) := by decide
theorem test_ended : step { at0 [0x00] [] with status := .haltedNormal } = .fault .runEnded := rfl
theorem test_jumpDests :
    jumpDests [0x60, 0x5B, 0x00] = [] ∧ jumpDests [0x5B, 0x00] = [0] ∧
      jumpDests [0x60, 0x03, 0x5B, 0x60, 0x01, 0x90, 0x03, 0x80, 0x60, 0x02, 0x57, 0x00] = [2] := by decide
theorem test_trace :
    (atPc [0x60, 0x01, 0x60, 0x02, 0x01, 0x00] 4 [2, 1]).trace =
        some { opcodeName := "ADD", pcBeforeExecution := 4, stackSnapshot := [3], memorySnapshot := [] } ∧
      (at0 [] []).trace =
        some { opcodeName := "STOP", pcBeforeExecution := 0, stackSnapshot := [], memorySnapshot := [] } ∧
      (at0 [0x01] []).trace = none := by decide
theorem test_fault_codes :
    [FaultKind.stackOverflow, .stackUnderflow, .invalidStackIndex, .invalidMemoryValue, .invalidOpcode,
      .invalidJumpDestination, .stepBudgetExceeded, .memoryLimit].map FaultKind.code = [1, 2, 3, 4, 5, 6, 7, 8] := by decide
theorem test_construct :
    construct 4096 1 100 [0x00, 0x00] [] = .refused .codeBufferTooLong ∧
      construct 4096 2 100 [0x5B, 0x00] [] = .next (State.initial 4096 2 100 [0x5B, 0x00] []) := ⟨rfl, rfl⟩


/-! ### Witnesses: for each statement with hypotheses, concrete values that meet them, one for each clause -/

/-- The depth of a stack of n equal Words. -/
theorem full (n : Nat) : (at0 [] (List.replicate n 0)).stack.length = n := List.length_replicate

/-- The start of a run of a short code meets the invariant. -/
theorem at0_inv (code : List Byte) (h : code.length ≤ 100) : (at0 code []).Inv :=
  ⟨empty_wf.1, fun _ => empty_wf.2, ⟨Nat.succ_pos _, show 4096 % 32 = 0 by decide⟩, h, rfl, Nat.zero_le _, fun _ => Nat.zero_le _, fun _ => Nat.zero_le _,
    fun _ => Nat.zero_le _, fun _ => rfl, fun _ => Nat.zero_le _, fun _ => Nat.zero_le _⟩

theorem witness_EncodeThenDecode :
    (Instr.push1 255).wellFormed = true ∧ (Instr.push32 M).wellFormed = true ∧ Instr.stop.wellFormed = true := by decide

theorem witness_DecodeThenEncode :
    decodeAt [0x00, 0x61, 0x01] 1 = .instr (.push2 0x0100) ∧ decodeAt [0xF3] 0 = .instr .ret := by decide

theorem witness_IllegalBytesRaiseInvalidOpcode :
    (at0 [0x04] []).status = .running ∧ (at0 [0x04] []).pc < (at0 [0x04] []).code.length ∧
      illegalOpcode (readByte [0x04] 0).toNat = true ∧ illegalOpcode (readByte [0xFF] 0).toNat = true ∧
      illegalOpcode (readByte [0x03] 0).toNat = false ∧ illegalOpcode (readByte [0xF3] 0).toNat = false := by decide

/-- Offset 1 is the last inside both buffers, offset 2 the first past them. -/
theorem witness_BufferReadsZeroPadBigEndian :
    let s := State.initial 4096 100 100 [0x01, 0x02] [0x03, 0x04]
    1 < s.code.length ∧ s.code.length ≤ 2 ∧ 1 < s.calldata.length ∧ s.calldata.length ≤ 2 ∧
      (s.codeWord 1).toNat / 256 ^ (31 - 0) % 256 = 2 ∧ (s.calldataWord 1).toNat / 256 ^ (31 - 31) % 256 = 0 := by decide

theorem witness_AssemblerWritesEncodings :
    (∀ i ∈ [Instr.push1 255, Instr.stop], i.wellFormed = true) ∧
      ∃ r ∈ registry, r.width ≠ 0 ∧ 256 ^ r.width ≤ 256 :=
  ⟨by decide, ⟨"PUSH1", 0x60, 1, fun imm => .push1 imm⟩, by simp [registry, registryPushLow], by decide, by decide⟩

theorem witness_StepRunsDecodedInstruction :
    (∃ u, (at0 [0x01] []).status = .running ∧ decodeAt [0x01] 0 = .instr .add ∧ exec .add (at0 [0x01] []) = .next u ∧
        u.status = .haltedFault) ∧
      (∃ u, decodeAt [0x00] 0 = .instr .stop ∧ exec .stop (at0 [0x00] []) = .next u ∧ u.status = .haltedNormal) ∧
      (∃ u, decodeAt [0x5B] 0 = .instr .jumpdest ∧ exec .jumpdest { at0 [0x5B] [] with steps := 99 } = .next u ∧
        u.status = .running ∧ u.steps + 1 ≤ u.stepBudget) ∧
      (∃ u, decodeAt [0x5B] 0 = .instr .jumpdest ∧ exec .jumpdest { at0 [0x5B] [] with steps := 100 } = .next u ∧
        u.status = .running ∧ u.stepBudget < u.steps + 1) :=
  ⟨⟨_, rfl, by decide, rfl, rfl⟩, ⟨_, by decide, rfl, rfl⟩, ⟨_, by decide, rfl, rfl, by decide⟩,
    ⟨_, by decide, rfl, rfl, by decide⟩⟩

theorem witness_SyntheticStopHalts :
    (at0 [0x60] []).status = .running ∧ (atPc [0x60] 1 []).code.length ≤ (atPc [0x60] 1 []).pc ∧
      (at0 [] []).code.length ≤ (at0 [] []).pc := by decide

theorem witness_RunningExactlyWhenStepping :
    (at0 [] []).status = .running ∧ ({ at0 [] [] with status := .haltedFault } : State).status ≠ .running ∧
      ∃ t, step (at0 [0x00] []) = .next t ∧ t.status = .haltedNormal :=
  ⟨rfl, by decide, _, rfl, rfl⟩

theorem witness_EveryRunEndsWithinBudget :
    ({ at0 [0x5B] [] with steps := 100 } : State).status = .running ∧
      ({ at0 [0x5B] [] with steps := 100 } : State).steps ≤ 100 := by decide

/-- The first clause with a budget that the instruction exceeds, then the others. -/
theorem witness_TraceRecordAfterCompletion :
    (∃ u, ({ at0 [0x5B] [] with steps := 100 } : State).status = .running ∧ decodeAt [0x5B] 0 = .instr .jumpdest ∧
        exec .jumpdest { at0 [0x5B] [] with steps := 100 } = .next u ∧ u.NotFaulted ∧ u.stepBudget < u.steps + 1) ∧
      (∃ t, step (at0 [0x5B] []) = .next t ∧ t.NotFaulted) ∧
      (∃ t, step (at0 [0x01] []) = .next t ∧ t.status = .haltedFault ∧ t.faultKind ≠ .stepBudgetExceeded) ∧
      ({ at0 [] [] with status := .haltedNormal } : State).status ≠ .running :=
  ⟨⟨_, rfl, by decide, rfl, nofun, by decide⟩, ⟨_, rfl, nofun⟩, ⟨_, rfl, rfl, nofun⟩, nofun⟩

theorem witness_ConstructionGivesResetState :
    1 < [(0x00 : Byte), 0x00].length ∧ [(0x00 : Byte), 0x00].length ≤ 2 := by decide

theorem witness_InvariantAtConstruction : 0 < 32 ∧ 32 % 32 = 0 ∧ [(0x00 : Byte)].length ≤ 1 := by decide

theorem witness_StepKeepsInvariant :
    (at0 [0x60, 0x01] []).Inv ∧ (∃ t, step (at0 [0x60, 0x01] []) = .next t) ∧
      (at0 [0x5F] []).Inv ∧ ∃ t, step (at0 [0x5F] []) = .next t :=
  ⟨at0_inv _ (by decide), ⟨_, rfl⟩, at0_inv _ (by decide), _, rfl⟩

theorem witness_StepKeepsInstructionStart :
    (at0 [0x60, 0x01] []).Inv ∧ (at0 [0x60, 0x01] []).AtInstruction ∧
      ∃ t, step (at0 [0x60, 0x01] []) = .next t ∧ t.NotFaulted :=
  ⟨at0_inv _ (by decide), .zero, _, rfl, nofun⟩

theorem witness_RunConstantsNeverChange : ∃ t, step (at0 [0x01] []) = .next t := ⟨_, rfl⟩

/-- The full stack, and one Word. -/
theorem witness_ArithmeticInstructions :
    (at0 [] (List.replicate 1024 0)).stack = 0 :: 0 :: List.replicate 1022 0 ∧
      (at0 [] (List.replicate 1024 0)).stack.length ≤ 1024 ∧ (at0 [] [1]).stack.length < 2 :=
  ⟨List.replicate_succ, Nat.le_of_eq (full 1024), by decide⟩

theorem witness_StackControllerCommands :
    (List.replicate 1024 (0 : Word)).length = 1024 ∧ (List.replicate 1023 (0 : Word)).length < 1024 ∧
      ([] : List Word) = [] ∧ [(5 : Word)] ≠ [] ∧ [(5 : Word)].length ≤ 1 ∧ 0 < [(5 : Word)].length ∧
      (1 ≠ 0 ∧ [(5 : Word)].length ≤ 1) ∧ 1 ≠ 0 ∧ 1 < [(5 : Word), 6].length :=
  ⟨full 1024, Nat.lt_of_le_of_lt (Nat.le_of_eq (full 1023)) (by decide), rfl, nofun, by decide, by decide, by decide, by decide, by decide⟩

theorem witness_FailedCommandsChangeNothing :
    stkUnit .pop [] = (.err .stackUnderflow, []) ∧
      memUnit 32 (.store8 32 1) Memory.empty = (.err .memoryLimit, Memory.empty) ∧
      memUnit 32 (.store8 0 256) Memory.empty = (.err .invalidMemoryValue, Memory.empty) := by decide

theorem witness_PushesThenPopsAreLifo : (List.replicate 1022 (0 : Word)).length + [(1 : Word), 2].length ≤ 1024 := by
  rw [List.length_replicate]; decide

theorem witness_PushInstructions :
    (Instr.push1 7).immediate = some (1, 7) ∧ (Instr.push32 M).immediate = some (32, M) ∧
      (at0 [] (List.replicate 1023 0)).stack.length < 1024 ∧ (at0 [] (List.replicate 1024 0)).stack.length = 1024 :=
  ⟨rfl, rfl, Nat.lt_of_le_of_lt (Nat.le_of_eq (full 1023)) (by decide), full 1024⟩

/-- PUSH1 with its immediate, and PUSH32 as the last byte of the code; at the ends of n. -/
theorem witness_PushReadsItsImmediateFromCode :
    (0 < [(0x60 : Byte), 0x07].length ∧ ((at0 [0x60, 0x07] []).codeByte 0).toNat = 0x5F + 1) ∧
      0 < [(0x7F : Byte)].length ∧ ((at0 [0x7F] []).codeByte 0).toNat = 0x5F + 32 := by decide

theorem witness_DupInstructions :
    Instr.dup1.dupNumber = some 1 ∧ Instr.dup16.dupNumber = some 16 ∧
      (16 ≤ (at0 [] (List.replicate 16 0)).stack.length ∧ (at0 [] (List.replicate 16 0)).stack.length < 1024) ∧
      (at0 [] (List.replicate 15 0)).stack.length < 16 ∧ (at0 [] (List.replicate 1024 0)).stack.length = 1024 :=
  ⟨rfl, rfl, by decide, by decide, full 1024⟩

theorem witness_SwapInstructions :
    Instr.swap1.swapNumber = some 1 ∧ Instr.swap16.swapNumber = some 16 ∧
      16 < (at0 [] (List.replicate 17 0)).stack.length ∧ (at0 [] (List.replicate 16 0)).stack.length ≤ 16 := by decide

/-- Value 255 and 256 at offset 31, and the last offset that a capacity of 4096 takes beside the first that it does not. -/
theorem witness_MemStore8Command :
    Memory.empty.wf ∧ 255 < 256 ∧ 255 ≤ 255 ∧ 4095 < 2 ^ 256 ∧ 4096 < max (Memory.empty.len / 32) ((4096 + 32) / 32) * 32 ∧
      max (Memory.empty.len / 32) ((4095 + 32) / 32) * 32 ≤ 4096 := by decide

theorem witness_ReadsThatNeverGrow :
    let m : Memory := { cells := [(31, 7)], len := 32 }
    m.len ≤ 32 ∧ 31 < m.len := by decide

theorem witness_MemLoadRangeCommand :
    Memory.empty.wf ∧ 1 ≤ 2 ∧ 4094 + 2 ≤ 2 ^ 256 ∧ 4096 < max (Memory.empty.len / 32) ((4095 + 2 + 31) / 32) * 32 ∧
      max (Memory.empty.len / 32) ((4094 + 2 + 31) / 32) * 32 ≤ 4096 := by decide

theorem witness_MemStoreWordCommand :
    Memory.empty.wf ∧ 4064 + 32 ≤ 2 ^ 256 ∧ 4096 < max (Memory.empty.len / 32) ((4065 + 63) / 32) * 32 ∧
      max (Memory.empty.len / 32) ((4064 + 63) / 32) * 32 ≤ 4096 := by decide

theorem witness_Mstore8Instruction :
    (at0 [] [4095, 1]).mem.wf ∧ (at0 [] [4095, 1]).stack = 4095 :: 1 :: [] ∧ (4095 : Word) ≠ BitVec.allOnes 256 ∧
      max ((at0 [] []).mem.len / 32) ((4095 + 32) / 32) * 32 ≤ (at0 [] []).memCapacity ∧
      (at0 [] []).memCapacity < max ((at0 [] []).mem.len / 32) ((4096 + 32) / 32) * 32 ∧
      (at0 [] [1]).stack.length < 2 := by decide

/-- A block with a capacity of 2^256 bytes, and one that could hold more. -/
def big (cap : Nat) (stack : List Word) : State := { at0 [] stack with memCapacity := cap }

/-- The offset and the range are the first that pass byte 2^256 - 1. -/
theorem witness_AccessesPastTheWordRangeFail :
    (255 ≤ 255 ∧ 2 ^ 256 ≤ 2 ^ 256) ∧ (1 ≤ 2 ∧ 2 ^ 256 < 2 ^ 256 - 1 + 2) ∧ 2 ^ 256 < 2 ^ 256 - 31 + 32 ∧
      (big (2 ^ 256 + 32) [M, 2]).stack = M :: 2 :: [] ∧ (2 : Word) ≠ 0 ∧ 2 ^ 256 < M.toNat + (2 : Word).toNat := by decide

theorem witness_Mstore8AtTheLastOffset :
    (big (2 ^ 256) [M, 1]).mem.wf ∧ (big (2 ^ 256) [M, 1]).stack = BitVec.allOnes 256 :: 1 :: [] ∧
      max ((big (2 ^ 256) [M, 1]).mem.len / 32) (2 ^ 256 / 32) * 32 ≤ (big (2 ^ 256) [M, 1]).memCapacity := by decide

/-- RETURN past byte 2^256 - 1 faults on any capacity, and the last byte alone can be returned where the capacity takes it (R51). -/
theorem test_word_range :
    stepFault { big (2 ^ 256 + 32) [M, 2] with code := [0xF3] } = some (.memoryLimit, 0) ∧
      stepEnd { big (2 ^ 256) [M, 1] with code := [0xF3] } = some (.haltedNormal, 1, [0]) := by decide

theorem witness_MsizeInstruction :
    (at0 [] (List.replicate 1023 0)).stack.length < 1024 ∧ (at0 [] (List.replicate 1024 0)).stack.length = 1024 ∧
      32 * ((at0 [] []).mem.len / 32) < 2 ^ 256 :=
  ⟨Nat.lt_of_le_of_lt (Nat.le_of_eq (full 1023)) (by decide), full 1024, by decide⟩

theorem witness_MemoryNeverShrinks :
    (at0 [0x53] [40, 1]).mem.len % 32 = 0 ∧ ∃ t, step (at0 [0x53] [40, 1]) = .next t ∧ t.NotFaulted :=
  ⟨by decide, _, rfl, nofun⟩

theorem witness_OnlyMstore8AndReturnTouchMemory :
    (∃ t, exec .jumpdest (at0 [] []) = .next t ∧ t.NotFaulted) ∧
      (at0 [] [30, 4]).mem.wf ∧ ∃ t, exec .ret (at0 [] [30, 4]) = .next t ∧ t.NotFaulted :=
  ⟨⟨_, rfl, nofun⟩, by decide, _, rfl, nofun⟩

theorem witness_JumpDestsAreOpcodeOffsets :
    2 ∈ jumpDests [0x60, 0x5B, 0x5B] ∧ 1 ∉ jumpDests [0x60, 0x5B, 0x5B] := by decide

theorem witness_PcInstruction :
    (at0 [] (List.replicate 1023 0)).stack.length < 1024 ∧ (at0 [] (List.replicate 1024 0)).stack.length = 1024 ∧
      (at0 [] []).pc < 2 ^ 256 :=
  ⟨Nat.lt_of_le_of_lt (Nat.le_of_eq (full 1023)) (by decide), full 1024, by decide⟩

theorem witness_JumpInstruction :
    let s := at0 [0x5B, 0x56] [0]
    s.stack = 0 :: [] ∧ (0 : Word).toNat ∈ s.jdest ∧ (1 : Word).toNat ∉ s.jdest ∧ (at0 [0x56] []).stack = [] := by decide

theorem witness_JumpiInstruction :
    let s := at0 [0x5B, 0x57] [0, 1]
    s.stack = 0 :: 1 :: [] ∧ (1 : Word) ≠ 0 ∧ (0 : Word).toNat ∈ s.jdest ∧ (1 : Word).toNat ∉ s.jdest ∧
      (at0 [0x57] [1]).stack.length < 2 := by decide

theorem witness_ReturnInstruction :
    let s := at0 [0xF3] [4095, 1]
    s.mem.wf ∧ s.stack = 4095 :: 1 :: [] ∧ (1 : Word) ≠ 0 ∧ (4095 : Word).toNat + (1 : Word).toNat ≤ 2 ^ 256 ∧
      max (s.mem.len / 32) ((4095 + 1 + 31) / 32) * 32 ≤ s.memCapacity ∧
      s.memCapacity < max (s.mem.len / 32) ((4096 + 1 + 31) / 32) * 32 ∧ (at0 [0xF3] [1]).stack.length < 2 := by decide

/-- A taken JUMP, and a JUMPI at offset 0 of the code `57 5B` whose target is the next offset and whose condition is 1. -/
theorem witness_TakenJumpLandsOnJumpdest :
    (∃ t, (atPc [0x57, 0x5B] 0 [1, 1]).Inv ∧ exec .jump (atPc [0x57, 0x5B] 0 [1, 1]) = .next t ∧ t.NotFaulted) ∧
      ∃ t, exec .jumpi (atPc [0x57, 0x5B] 0 [1, 1]) = .next t ∧
        (atPc [0x57, 0x5B] 0 [1, 1]).stack = 1 :: 1 :: [] ∧ (1 : Word) ≠ 0 ∧ t.NotFaulted :=
  ⟨⟨_, ⟨by decide, fun _ => by decide, by decide, by decide, rfl, by decide, fun _ => by decide, fun _ => by decide,
    fun _ => by decide, fun _ => rfl, fun _ => by decide, fun _ => by decide⟩, rfl, nofun⟩, _, rfl, rfl, by decide, nofun⟩

theorem witness_PcAdvancesOrJumps :
    (∃ t, exec .jumpdest (at0 [] []) = .next t ∧ t.NotFaulted) ∧
      (∃ t, exec .jump (at0 [0x5B] [0]) = .next t ∧ t.NotFaulted) ∧
      (∃ t, exec .jumpi (at0 [0x5B] [0, 1]) = .next t ∧ t.NotFaulted) ∧
      ∃ t, exec .jumpi (at0 [0x5B] [7, 0]) = .next t ∧ t.NotFaulted :=
  ⟨⟨_, rfl, nofun⟩, ⟨_, rfl, nofun⟩, ⟨_, rfl, nofun⟩, _, rfl, nofun⟩

theorem witness_OnlyHaltingWritesStatus :
    (∃ t, exec .jumpdest (at0 [] [1]) = .next t ∧ t.NotFaulted) ∧ (∃ t, exec .stop (at0 [] [1]) = .next t ∧ t.NotFaulted) ∧
      ∃ t, exec .ret (at0 [] [0, 0]) = .next t ∧ t.NotFaulted :=
  ⟨⟨_, rfl, nofun⟩, ⟨_, rfl, nofun⟩, _, rfl, nofun⟩

set_option maxRecDepth 20000 in
/-- One state for each of the four faults an instruction raises. -/
theorem witness_InstructionFaultTable :
    (∃ t, (at0 [] []).NotFaulted ∧ (at0 [] []).stack.length ≤ 1024 ∧ exec .add (at0 [] []) = .next t ∧
        t.status = .haltedFault) ∧
      (∃ t, (at0 [] (List.replicate 1024 0)).stack.length ≤ 1024 ∧
        exec .pc (at0 [] (List.replicate 1024 0)) = .next t ∧ t.status = .haltedFault ∧ t.faultKind = .stackOverflow) ∧
      (∃ t, exec .jump (at0 [] [0]) = .next t ∧ t.status = .haltedFault ∧ t.faultKind = .invalidJumpDestination) ∧
      ∃ t, exec .ret (at0 [] [M, 1]) = .next t ∧ t.status = .haltedFault ∧ t.faultKind = .memoryLimit :=
  ⟨⟨_, nofun, by decide, rfl, rfl⟩, ⟨_, Nat.le_of_eq (full 1024), rfl, rfl, rfl⟩,
    ⟨_, rfl, rfl, rfl⟩, _, rfl, rfl, rfl⟩

theorem witness_FaultPcOfEveryFault :
    (∃ t, step (at0 [0x01] []) = .next t ∧ t.status = .haltedFault ∧ t.faultKind ≠ .stepBudgetExceeded) ∧
      ∃ t, step { at0 [0x5B] [] with steps := 100 } = .next t ∧ t.status = .haltedFault ∧
        t.faultKind = .stepBudgetExceeded :=
  ⟨⟨_, rfl, rfl, nofun⟩, _, rfl, rfl, rfl⟩

end Sys2Proof.Machine.Test
end

section
/-! PROOFS. The statements about the state (spec/10_state.md): construction, the invariant, the instruction starts, the frame of
pc and of the status elements, and the commands that fail. -/

namespace Sys2Proof.Machine

/-! ### Construction (R46, R290) -/

/-- A code buffer longer than CODE_MAX is refused (D15). -/
theorem construct_long {cap cmax budget : Nat} {code calldata : List Byte} (h : cmax < code.length) :
    construct cap cmax budget code calldata = .refused .codeBufferTooLong := if_neg (Nat.not_le.2 h)

theorem construct_fits {cap cmax budget : Nat} {code calldata : List Byte} (h : code.length ≤ cmax) :
    construct cap cmax budget code calldata = .next (State.initial cap cmax budget code calldata) := if_pos h

/-- A memory of length 0 reads 0 everywhere (R56). -/
theorem empty_load8 (a : Nat) : Memory.empty.load8 a = 0 := if_neg (Nat.not_lt_zero a)

/-- The invariant at construction, with the bounds R5 and D15 set on the parameters. -/
theorem initial_inv {cap cmax : Nat} (budget : Nat) {code : List Byte} (calldata : List Byte) (hcap : 0 < cap)
    (hmod : cap % 32 = 0) (hcode : code.length ≤ cmax) : (State.initial cap cmax budget code calldata).Inv where
  memCanonical := empty_wf.1
  memLen _ := empty_wf.2
  capacity := ⟨hcap, hmod⟩
  codeBound := hcode
  jdestScan := rfl
  pcBound := Nat.zero_le _
  stackBound _ := Nat.zero_le _
  memBound _ := Nat.zero_le _
  retBound _ := Nat.zero_le _
  retRunning _ := rfl
  stepsBound _ := Nat.zero_le _
  stepsRunning _ := Nat.zero_le _

theorem initial_atInstruction (cap cmax budget : Nat) (code calldata : List Byte) :
    (State.initial cap cmax budget code calldata).AtInstruction := OpcodeOffset.zero

/-! ### What each part of a step does to the invariant -/

theorem advance_inv {s : State} {n : Nat} (hi : s.Inv) (h : s.pc + n ≤ s.code.length + 32) : (s.advance n).Inv :=
  { hi with pcBound := h }

/-- The offset after a decoded instruction stays within the bound of R29: it starts below CODE_LEN and has at most 33 bytes. -/
theorem decode_pc_bound {code : List Byte} {pc : Nat} {i : Instr} (h : decodeAt code pc = .instr i) :
    pc + i.length ≤ code.length + 32 := by
  have ⟨hlt, hlen, _⟩ := decode_len h
  omega

/-- A body that completes keeps the invariant of a running state. -/
theorem bodyFrame_inv {h : Shape} {s t : State} (hf : BodyFrame h s t) (hi : s.Inv) (hr : s.status = .running) : t.Inv := by
  have hn : s.NotFaulted := by simp [State.NotFaulted, hr]
  obtain ⟨hcode, -, hjdest, hcap, hcmax, hbudget⟩ := hf.sameRun
  have hsteps : t.steps ≤ t.stepBudget := by rw [hf.steps, hbudget]; exact hi.stepsRunning hr
  have hwf := hf.memWf (inv_memWf hi hn)
  exact {
    memCanonical := hwf.1
    memLen := fun _ => hwf.2
    capacity := hcap ▸ hi.capacity
    codeBound := by rw [hcode, hcmax]; exact hi.codeBound
    jdestScan := by rw [hjdest, hcode]; exact hi.jdestScan
    pcBound := by
      rw [hcode]
      rcases hf.pcTarget with e | hmem
      · exact e ▸ hi.pcBound
      · have := (jumpDests_lt (hi.jdestScan ▸ hmem)).1
        omega
    stackBound := fun _ => hf.stackBound (hi.stackBound hn)
    memBound := fun _ => hcap ▸ hf.memBound (hi.memBound hn)
    retBound := fun _ => hcap ▸ hf.retBound (hi.retBound hn)
    retRunning := fun ht => by
      have hne : ¬ (h = .stop ∨ h = .ret) := fun hh => by simp [hf.halts hh] at ht
      rw [(hf.status (fun e => hne (.inl e)) fun e => hne (.inr e)).2]
      exact hi.retRunning hr
    stepsBound := fun _ => Nat.le_succ_of_le hsteps
    stepsRunning := fun _ => hsteps }

/-- The synthetic STOP halts without moving pc (R252). -/
theorem stop_inv {s : State} (hi : s.Inv) (hr : s.status = .running) : s.stop.Inv :=
  bodyFrame_inv (body_frame (h := .stop) (pc0 := s.pc) nofun rfl) hi hr

/-- Counting a step keeps the invariant where the budget leaves room for it (R254, R255). -/
theorem countStep_inv {s : State} (hi : s.Inv) (hb : s.steps ≤ s.stepBudget)
    (hr : s.status = .running → s.steps + 1 ≤ s.stepBudget) : s.countStep.Inv :=
  { hi with stepsBound := fun _ => Nat.succ_le_succ hb, stepsRunning := hr }

/-- The close of a step keeps the invariant, given that the budget was not exceeded before this instruction. -/
theorem retire_inv {s : State} (hi : s.Inv) (hb : s.NotFaulted → s.steps ≤ s.stepBudget) : s.retire.Inv := by
  rcases retire_cases s with ⟨_, e⟩ | ⟨hs, e⟩ | ⟨hs, hroom, e⟩ | ⟨_, _, e⟩ <;> rw [e]
  · exact hi
  · exact countStep_inv hi (hb (by simp [State.NotFaulted, hs])) (by simp [hs])
  · exact countStep_inv hi (by omega) fun _ => hroom
  · exact raiseFault_inv hi ⟨rfl, rfl, rfl, rfl, rfl, rfl⟩ hi.pcBound

/-- An instruction that completes has the frame of its shape, from the state with pc moved past it. -/
theorem exec_frame {i : Instr} {s u : State} (h : exec i s = .next u) (hu : u.NotFaulted) :
    BodyFrame (shapeOf i) (s.advance i.length) u := by
  rcases exec_inv h with hf | ⟨k, _, rfl⟩
  · exact hf
  · exact absurd rfl hu

/-- The decoded instruction of a running state, completing or faulting, keeps the invariant. -/
theorem exec_keeps_inv {i : Instr} {s u : State} (hi : s.Inv) (hr : s.status = .running)
    (hd : decodeAt s.code s.pc = .instr i) (h : exec i s = .next u) : u.Inv := by
  have ha : (s.advance i.length).Inv := advance_inv hi (decode_pc_bound hd)
  rcases exec_inv h with hf | ⟨k, _, rfl⟩
  · exact bodyFrame_inv hf ha hr
  · exact raiseFault_inv ha ⟨rfl, rfl, rfl, rfl, rfl, rfl⟩ ha.pcBound

theorem exec_steps_le {i : Instr} {s u : State} (hi : s.Inv) (hr : s.status = .running) (h : exec i s = .next u)
    (hu : u.NotFaulted) : u.steps ≤ u.stepBudget := by
  have hf := exec_frame h hu
  obtain ⟨-, -, -, -, -, hbudget⟩ := hf.sameRun
  rw [hf.steps, hbudget]
  exact hi.stepsRunning hr

/-! ### Instruction starts (R30, R87) -/

/-- The members of JDEST are opcode offsets of the linear decode (R230). -/
theorem jumpDests_opcodeOffset {code : List Byte} {t : Nat} (h : t ∈ jumpDests code) : OpcodeOffset code t :=
  scan_opcodeOffset code.length 0 (Nat.sub_le _ _) .zero t h

/-- The offset after an instruction decoded at an opcode offset is again one: it is as long as the linear decode takes it to be. -/
theorem decode_next_opcodeOffset {code : List Byte} {pc : Nat} {i : Instr} (ho : OpcodeOffset code pc)
    (hd : decodeAt code pc = .instr i) : OpcodeOffset code (pc + i.length) := by
  obtain ⟨hlt, -, hlen⟩ := decode_len hd
  have hnext := OpcodeOffset.next pc code[pc] ho (List.getElem?_eq_getElem hlt)
  rwa [hlen, readByte_of_lt hlt, ← Nat.add_assoc]

theorem exec_keeps_atInstruction {i : Instr} {s u : State} (hi : s.Inv) (ha : s.AtInstruction)
    (hd : decodeAt s.code s.pc = .instr i) (h : exec i s = .next u) (hu : u.NotFaulted) : u.AtInstruction := by
  have hf := exec_frame h hu
  have hcode : u.code = s.code := hf.sameRun.1
  rw [State.AtInstruction, hcode]
  rcases hf.pcTarget with hpc | hmem
  · rw [hpc]
    exact decode_next_opcodeOffset ha hd
  · exact jumpDests_opcodeOffset (hi.jdestScan ▸ hmem)

/-! ### JUMP, STOP and JUMPDEST -/

/-- A JUMP that completes has landed on a member of JDEST (R233). -/
theorem exec_jump_pc {s t : State} (h : exec .jump s = .next t) (ht : t.NotFaulted) : t.pc ∈ s.jdest := by
  rcases exec_cases .jump s with ⟨u, hb, e⟩ | ⟨k, _, e⟩ <;> cases e.symm.trans h
  · rcases jumpBody_cases (s.advance 1) with ⟨w, S, _, hw, e⟩ | ⟨_, _, _, _, e⟩ | ⟨_, e⟩ <;> cases e.symm.trans hb
    exact hw
  · exact absurd rfl ht

theorem exec_stop (s : State) : exec .stop s = .next (s.advance 1).stop := rfl

theorem exec_jumpdest (s : State) : exec .jumpdest s = .next (s.advance 1) := rfl

/-! ### Errors of the unit commands (R41, R42) -/

theorem store8_error {cap off v : Nat} {m : Memory} {k : FaultKind} (h : m.store8 cap off v = .error k) :
    k = .invalidMemoryValue ∨ k = .memoryLimit := by
  by_cases hv : 255 < v
  · rw [store8_invalid hv] at h
    cases h
    exact .inl rfl
  · simp only [Memory.store8, gt_iff_lt, hv, if_false] at h
    split at h
    next hg => cases h; exact .inr (grow_error hg)
    next => cases h

theorem storeWord_error {cap off : Nat} {w : Word} {m : Memory} {k : FaultKind}
    (h : m.storeWord cap off w = .error k) : k = .memoryLimit := by
  unfold Memory.storeWord at h
  split at h
  next hg => cases h; exact grow_error hg
  next => cases h

theorem stkUnit_err {c : StkCommand} {S S1 : List Word} {k : FaultKind} (h : stkUnit c S = (.err k, S1)) :
    S1 = S ∧ (k = .stackOverflow ∨ k = .stackUnderflow ∨ k = .invalidStackIndex) := by
  cases c with
  | push w =>
    rcases stkPush_cases w S with ⟨_, e⟩ | ⟨_, e⟩ <;> simp only [stkUnit, e] at h <;> cases h
    exact ⟨rfl, .inl rfl⟩
  | pop =>
    cases S with
    | nil => cases h; exact ⟨rfl, .inr (.inl rfl)⟩
    | cons w S => cases h
  | peek n =>
    cases hn : S[n]? with
    | some w => simp only [stkUnit, stkPeek_ok hn] at h; cases h
    | none =>
      simp only [stkUnit, stkPeek_short (List.getElem?_eq_none_iff.1 hn)] at h
      cases h
      exact ⟨rfl, .inr (.inl rfl)⟩
  | swap n =>
    by_cases hn : n = 0
    · subst hn
      cases h
      exact ⟨rfl, .inr (.inr rfl)⟩
    · rcases stkSwap_cases S hn with ⟨_, _, _, _, e⟩ | ⟨_, e⟩ <;> simp only [stkUnit, e] at h <;> cases h
      exact ⟨rfl, .inr (.inl rfl)⟩

theorem memUnit_err {cap : Nat} {c : MemCommand} {m m1 : Memory} {k : FaultKind} (h : memUnit cap c m = (.err k, m1)) :
    m1 = m ∧ (k = .invalidMemoryValue ∨ k = .memoryLimit) := by
  cases c with
  | store8 off v =>
    cases e : m.store8 cap off v <;> simp only [memUnit, e] at h <;> cases h
    exact ⟨rfl, store8_error e⟩
  | load8 off => cases h
  | loadRange off n =>
    cases e : m.loadRange cap off n <;> simp only [memUnit, e] at h <;> cases h
    exact ⟨rfl, .inr (loadRange_error e)⟩
  | storeWord off w =>
    cases e : m.storeWord cap off w <;> simp only [memUnit, e] at h <;> cases h
    exact ⟨rfl, .inr (storeWord_error e)⟩
  | wordCount => cases h

/-! ### The obligations -/

/-- Settles O15: each of the three kinds of step keeps the invariant, and the close of a step counts within the budget. -/
theorem stepKeepsInvariant : Obligations.StepKeepsInvariant := by
  intro s t hi h
  obtain ⟨hr, ⟨i, u, hd, hu, rfl⟩ | ⟨_, _, rfl⟩ | ⟨_, _, hlt, rfl⟩⟩ := step_inv h
  · exact retire_inv (exec_keeps_inv hi hr hd hu) (exec_steps_le hi hr hu)
  · exact countStep_inv (stop_inv hi hr) (hi.stepsRunning hr) nofun
  · exact raiseFault_inv hi ⟨rfl, rfl, rfl, rfl, rfl, rfl⟩ (show s.pc + 1 ≤ s.code.length + 32 by omega)

/-- Settles O16: pc moves past the decoded instruction, to a member of JDEST, or, at the synthetic STOP, nowhere. -/
theorem stepKeepsInstructionStart : Obligations.StepKeepsInstructionStart := by
  intro s t hi ha h ht
  obtain ⟨-, ⟨i, u, hd, hu, rfl⟩ | ⟨_, _, rfl⟩ | ⟨_, _, _, rfl⟩⟩ := step_inv h
  · obtain ⟨hn, e⟩ := retire_notFaulted ht
    have hstart : u.AtInstruction := exec_keeps_atInstruction hi ha hd hu hn
    rw [e]
    exact hstart
  · exact ha
  · exact absurd rfl ht

/-- Settles O21, by the commands of each unit. -/
theorem failedCommandsChangeNothing : Obligations.FailedCommandsChangeNothing :=
  ⟨fun _ _ _ _ => stkUnit_err, fun _ _ _ _ _ => memUnit_err⟩

/-- Settles O42, from the frame of the instruction's shape; JUMP, which never falls through, needs its own cases. -/
theorem pcAdvancesOrJumps : Obligations.PcAdvancesOrJumps := by
  intro i s t h ht
  have hf := exec_frame h ht
  refine ⟨fun hj hji => ?_, ?_, ?_⟩
  · exact hf.pc (fun e => hj (shapeOf_inj_jump e)) fun e => hji (shapeOf_inj_jumpi e)
  · rintro rfl
    exact exec_jump_pc h ht
  · rintro rfl
    exact hf.pcTarget

/-- Settles O43, from the frame of the instruction's shape; that STOP and JUMPDEST leave the stack is their meaning. -/
theorem onlyHaltingWritesStatus : Obligations.OnlyHaltingWritesStatus := by
  intro i s t h ht
  have hf := exec_frame h ht
  refine ⟨hf.steps, hf.faultKind, hf.faultPc, hf.sameRun, fun hs hr => ?_, ?_, ?_⟩
  · exact hf.status (fun e => hs (shapeOf_inj_stop e)) fun e => hr (shapeOf_inj_ret e)
  · rintro (rfl | rfl)
    · exact hf.halts (.inl rfl)
    · exact hf.halts (.inr rfl)
  · rintro (rfl | rfl)
    · cases (exec_stop s).symm.trans h
      rfl
    · cases (exec_jumpdest s).symm.trans h
      rfl

/-- Settles O12, on the two sides of CODE_MAX. -/
theorem constructionGivesResetState : Obligations.ConstructionGivesResetState := fun _ _ _ _ _ =>
  ⟨construct_long, fun h => ⟨_, construct_fits h, rfl, rfl, empty_load8, rfl, rfl, rfl, rfl, rfl, rfl, rfl, rfl, rfl, rfl, rfl⟩⟩

/-- Settles O14: every clause of the invariant holds of the reset state. -/
theorem invariantAtConstruction : Obligations.InvariantAtConstruction := fun cap cmax budget code calldata hcap hmod hcode =>
  ⟨initial_inv budget calldata hcap hmod hcode, initial_atInstruction cap cmax budget code calldata⟩

/-- Settles O13: State.reset is a construction with a legal MEM_CAPACITY and empty code. -/
theorem invariantAtReset : Obligations.InvariantAtReset :=
  invariantAtConstruction Config.resetMemCapacity Config.resetCodeMax Config.resetStepBudget [] [] (by decide) (by decide)
    (Nat.zero_le _)

end Sys2Proof.Machine
end

section
/-! PROOFS. The statements about memory and the read-only buffers (spec/20_memory.md): the commands of MEM, the read ports, and what
a step keeps of them. -/

namespace Sys2Proof.Machine

/-! ### Reads of code and calldata (R62, R63) -/

theorem getElem?_eq_readByte {buf : List Byte} {i : Nat} (h : i < buf.length) : buf[i]? = some (readByte buf i) := by
  rw [readByte_of_lt h, List.getElem?_eq_getElem h]

theorem toNat_readWord (buf : List Byte) (i : Nat) : (readWord buf i).toNat = readBE buf i 32 :=
  toNat_word_be (Nat.le_of_eq (length_readBytes buf i 32))

theorem readWord_digit {buf : List Byte} {i j : Nat} (h : j < 32) :
    (readWord buf i).toNat / 256 ^ (31 - j) % 256 = (readByte buf (i + j)).toNat := by
  rw [toNat_readWord]
  exact readBE_digit buf i 32 j h

/-! ### MemLoad8 (R56) -/

theorem load8_of_lt {m : Memory} {off : Nat} (h : off < m.len) : m.load8 off = cellAt m.cells off := if_pos h

theorem load8_past {m : Memory} {off : Nat} (h : m.len ≤ off) : m.load8 off = 0 := if_neg (Nat.not_lt.2 h)

/-! ### NewLen as the statements write it, and accesses that do not fit (R51, R52, R54) -/

theorem newLen_byte (len off : Nat) : newLen len off = max (len / 32) ((off + 32) / 32) * 32 := rfl

theorem newLen_word (len off : Nat) : newLen len (off + 31) = max (len / 32) ((off + 63) / 32) * 32 := rfl

theorem newLen_range (len off : Nat) {n : Nat} (h : 1 ≤ n) :
    newLen len (off + n - 1) = max (len / 32) ((off + n + 31) / 32) * 32 := by
  rw [newLen_byte, show off + n - 1 + 32 = off + n + 31 by omega]

theorem not_fits_over {cap len k : Nat} (h : cap < newLen len k) : ¬ fits cap len k := fun hf => Nat.not_le.2 h hf.2

theorem store8_full {cap off v : Nat} {m : Memory} (hv : v ≤ 255) (h : ¬ fits cap m.len off) :
    m.store8 cap off v = .error .memoryLimit := by
  simp only [Memory.store8, gt_iff_lt, Nat.not_lt.2 hv, if_false, grow_full h]

theorem loadRange_full {cap off n : Nat} {m : Memory} (hn : n ≠ 0) (h : ¬ fits cap m.len (off + n - 1)) :
    m.loadRange cap off n = .error .memoryLimit := by
  simp only [Memory.loadRange, hn, if_false, grow_full h]

theorem storeWord_full {cap off : Nat} {w : Word} {m : Memory} (h : ¬ fits cap m.len (off + 31)) :
    m.storeWord cap off w = .error .memoryLimit := by
  simp only [Memory.storeWord, grow_full h]

/-! ### The responses of MEM (R42, R44) -/

theorem memUnit_store8_ok {cap off v : Nat} {m m1 : Memory} (h : m.store8 cap off v = .ok m1) :
    memUnit cap (.store8 off v) m = (.ok, m1) := by simp only [memUnit, h]

theorem memUnit_store8_error {cap off v : Nat} {m : Memory} {k : FaultKind} (h : m.store8 cap off v = .error k) :
    memUnit cap (.store8 off v) m = (.err k, m) := by simp only [memUnit, h]

theorem memUnit_loadRange_ok {cap off n : Nat} {m m1 : Memory} {bs : List Byte} (h : m.loadRange cap off n = .ok (bs, m1)) :
    memUnit cap (.loadRange off n) m = (.okBytes bs, m1) := by simp only [memUnit, h]

theorem memUnit_loadRange_error {cap off n : Nat} {m : Memory} {k : FaultKind} (h : m.loadRange cap off n = .error k) :
    memUnit cap (.loadRange off n) m = (.err k, m) := by simp only [memUnit, h]

theorem memUnit_loadRange_zero (cap off : Nat) (m : Memory) : memUnit cap (.loadRange off 0) m = (.okBytes [], m) :=
  memUnit_loadRange_ok (loadRange_zero cap off m)

theorem memUnit_storeWord_ok {cap off : Nat} {w : Word} {m m1 : Memory} (h : m.storeWord cap off w = .ok m1) :
    memUnit cap (.storeWord off w) m = (.ok, m1) := by simp only [memUnit, h]

theorem memUnit_storeWord_error {cap off : Nat} {w : Word} {m : Memory} {k : FaultKind} (h : m.storeWord cap off w = .error k) :
    memUnit cap (.storeWord off w) m = (.err k, m) := by simp only [memUnit, h]

/-! ### Faulting and completing instructions -/

theorem State.SameRun.trans {s t u : State} (hst : s.SameRun t) (htu : t.SameRun u) : s.SameRun u := by
  obtain ⟨hcode, hcalldata, hjdest, hcap, hcmax, hbudget⟩ := hst
  obtain ⟨hcode', hcalldata', hjdest', hcap', hcmax', hbudget'⟩ := htu
  exact ⟨hcode'.trans hcode, hcalldata'.trans hcalldata, hjdest'.trans hjdest, hcap'.trans hcap, hcmax'.trans hcmax,
    hbudget'.trans hbudget⟩

/-- Completing or faulting, an instruction writes nothing that is fixed for the run. -/
theorem exec_sameRun {i : Instr} {s u : State} (h : exec i s = .next u) : s.SameRun u := by
  rcases exec_inv h with hf | ⟨k, _, rfl⟩
  · exact hf.sameRun
  · exact ⟨rfl, rfl, rfl, rfl, rfl, rfl⟩

/-- The fault an instruction's body raises is taken at pc0 (R272, R273). -/
theorem exec_body_error {i : Instr} {s : State} {k : FaultKind}
    (h : (shapeOf i).body s.pc (s.advance i.length) = .error k) :
    ∃ t, exec i s = .next t ∧ s.FaultedFrom t k s.pc := by
  rcases exec_cases i s with ⟨t, hb, _⟩ | ⟨k1, hb, e⟩ <;> cases hb.symm.trans h
  exact ⟨_, e, rfl, rfl, rfl, exec_sameRun e⟩

/-- RETURN raises what MemLoadRange over its range raises (R236). -/
theorem returnBody_error {s : State} {off len : Word} {S : List Word} {k : FaultKind} (hs : s.stack = off :: len :: S)
    (h : s.mem.loadRange s.memCapacity off.toNat len.toNat = .error k) : returnBody s = .error k := by
  simp only [returnBody, popTwo_cons hs, State.setReturnData, State.withStack_mem, State.withStack_memCapacity, h]

/-! ### The obligations -/

/-- Settles O5: both word reads are the read of 32 bytes of a buffer, whose digits are its bytes. -/
theorem bufferReadsZeroPadBigEndian : Obligations.BufferReadsZeroPadBigEndian := fun _ _ =>
  ⟨getElem?_eq_readByte, readByte_past, getElem?_eq_readByte, readByte_past, fun _ => readWord_digit, fun _ => readWord_digit,
    rfl, rfl, rfl, rfl⟩

/-- Settles O17, by the three kinds of step. -/
theorem runConstantsNeverChange : Obligations.RunConstantsNeverChange := by
  intro s t h
  obtain ⟨-, ⟨i, u, _, hu, rfl⟩ | ⟨_, _, rfl⟩ | ⟨_, _, _, rfl⟩⟩ := step_inv h
  · exact (exec_sameRun hu).trans (retire_sameRun u)
  · exact ⟨rfl, rfl, rfl, rfl, rfl, rfl⟩
  · exact ⟨rfl, rfl, rfl, rfl, rfl, rfl⟩

/-- Settles O27: the value, then whether the offset fits. -/
theorem memStore8Command : Obligations.MemStore8Command := by
  intro cap off v m hw
  refine ⟨fun hv => memUnit_store8_error (store8_invalid hv), fun hv hover => ?_, fun hv hoff hcap => ?_⟩
  · exact memUnit_store8_error (store8_full hv (not_fits_over (newLen_byte m.len off ▸ hover)))
  · have hfits : fits cap m.len off := ⟨hoff, newLen_byte m.len off ▸ hcap⟩
    obtain ⟨_, m1, e, hw1, hlen, hread, hother⟩ := (store8_cases hw hv).resolve_right fun hfull => hfull.1 hfits
    refine ⟨m1, memUnit_store8_ok e, hw1, hlen, ?_, hother⟩
    rw [hread, BitVec.toNat_ofNat, Nat.mod_eq_of_lt (by omega)]

/-- Settles O29: growth to the last byte of the range changes no read, so the bytes returned are those read before it. -/
theorem memLoadRangeCommand : Obligations.MemLoadRangeCommand := by
  intro cap off n m hw
  refine ⟨memUnit_loadRange_zero cap off m, fun hn hover => ?_, fun hn hend hcap => ?_⟩
  · rw [← newLen_range m.len off hn] at hover
    exact memUnit_loadRange_error (loadRange_full (by omega) (not_fits_over hover))
  · rw [← newLen_range m.len off hn] at hcap ⊢
    have hfits : fits cap m.len (off + n - 1) := ⟨by omega, hcap⟩
    obtain ⟨_, m1, e, hg⟩ := (loadRange_cases hw.2 (by omega)).resolve_right fun hfull => hfull.1 hfits
    exact ⟨_, m1, memUnit_loadRange_ok e, bytesAt_length off n m, fun _ => bytesAt_get, hg.wf hw, hg.len_eq, hg.reads⟩

/-- Settles O30: the 32 bytes written are the digits of the Word. -/
theorem memStoreWordCommand : Obligations.MemStoreWordCommand := by
  intro cap off w m hw
  refine ⟨fun hover => ?_, fun hend hcap => ?_⟩
  · exact memUnit_storeWord_error (storeWord_full (not_fits_over (newLen_word m.len off ▸ hover)))
  · have hfits : fits cap m.len (off + 31) := ⟨by omega, newLen_word m.len off ▸ hcap⟩
    obtain ⟨_, m1, e, hw1, hlen, hread, hother⟩ := (storeWord_cases hw).resolve_right fun hfull => hfull.1 hfits
    refine ⟨m1, memUnit_storeWord_ok e, hw1, hlen, fun i hi => ?_, hother⟩
    rw [hread i hi, BitVec.toNat_ofNat]

/-- Settles O33: an instruction that completes has the frame of its shape, and the synthetic STOP leaves memory alone. -/
theorem memoryNeverShrinks : Obligations.MemoryNeverShrinks := by
  intro s t hm h ht
  obtain ⟨-, ⟨i, u, _, hu, rfl⟩ | ⟨_, _, rfl⟩ | ⟨_, _, _, rfl⟩⟩ := step_inv h
  · obtain ⟨hn, e⟩ := retire_notFaulted ht
    rw [e]
    exact (exec_frame hu hn).memLen hm
  · exact Nat.le_refl _
  · exact absurd rfl ht

/-- Settles O46: the highest byte of each access is past the last that fits. -/
theorem accessesPastTheWordRangeFail : Obligations.AccessesPastTheWordRangeFail := by
  refine ⟨fun cap off m => ⟨fun v hv hoff => ?_, fun n hn hend => ?_, fun w hend => ?_⟩, fun s off len S hs hlen hend => ?_⟩
  · exact memUnit_store8_error (store8_full hv (not_fits_past hoff))
  · exact memUnit_loadRange_error (loadRange_full (by omega) (not_fits_past (by omega)))
  · exact memUnit_storeWord_error (storeWord_full (not_fits_past (by omega)))
  · have hn : len.toNat ≠ 0 := fun h => hlen (BitVec.eq_of_toNat_eq h)
    exact exec_body_error (i := .ret) (returnBody_error hs (loadRange_full hn (not_fits_past (by omega))))

/-- Settles O28, by the three responses. -/
theorem readsThatNeverGrow : Obligations.ReadsThatNeverGrow := fun cap off m =>
  ⟨⟨m.load8 off, rfl, load8_past, load8_of_lt⟩, rfl, memUnit_loadRange_zero cap off m⟩

end Sys2Proof.Machine
end

section
/-! PROOFS. The statements about encoding (spec/30_encoding.md): the registry's rows, the encoder and the decoder as inverses, the
illegal bytes, and the assembler. -/

namespace Sys2Proof

/-! ### The registry's rows (R84) -/

theorem registry_opcodes_nodup : (registry.map OpRow.opcode).Nodup := by decide

theorem registry_mnemonics_nodup : (registry.map OpRow.mnemonic).Nodup := by decide

/-- Every well-formed instruction is a row of the registry applied to an immediate that fits the row's width; a row without an
immediate is applied to 0. -/
theorem wellFormed_row {i : Instr} (h : i.wellFormed = true) :
    ∃ r v, r ∈ registry ∧ v.toNat < 256 ^ r.width ∧ r.make v = i := by
  obtain ⟨r, hr, -, -, -, hi, -⟩ := Laws.RegistryRow.all i
  refine ⟨r, Laws.RegistryRow.immValue i, (lookup_some hr).1, ?_, hi⟩
  have hf := (lookup_fact hr).1
  by_cases hw : r.width = 0
  · have himm := hf.plain hw (Laws.RegistryRow.immValue i)
    rw [hi] at himm
    simp [Laws.RegistryRow.immValue, himm]
  · have himm := hf.wide hw (Laws.RegistryRow.immValue i)
    rw [hi] at himm
    simpa only [Instr.wellFormed, himm, immFits, decide_eq_true_eq] using h

namespace RowFact

variable {r : OpRow} (hf : RowFact r)
include hf

/-- The encoding of a row's instruction: its opcode byte, then as many bytes of the immediate as the row is wide (R81). -/
theorem encode_make (v : Word) : (r.make v).encode = r.opcode :: beBytes r.width v := by
  by_cases hw : r.width = 0
  · simp only [Instr.encode, hf.plain hw, hf.opcode, hw, beBytes_zero]
  · simp only [Instr.encode, hf.wide hw, hf.opcode]

theorem wellFormed_make {v : Word} (hv : v.toNat < 256 ^ r.width) : (r.make v).wellFormed = true := by
  by_cases hw : r.width = 0
  · simp only [Instr.wellFormed, hf.plain hw]
  · simp only [Instr.wellFormed, hf.wide hw, immFits, hv, decide_true]

end RowFact

/-! ### Decoding (R82, R87) -/

theorem decodeAt_row {code : List Byte} {pc : Nat} {r : OpRow} (hpc : pc < code.length)
    (hr : lookupOpcode (readByte code pc) = some r) :
    decodeAt code pc = .instr (r.make (BitVec.ofNat 256 (readBE code (pc + 1) r.width))) := by
  simp only [decodeAt, hpc, if_true, hr]

theorem decodeAt_unregistered {code : List Byte} {pc : Nat} (hpc : pc < code.length)
    (hr : lookupOpcode (readByte code pc) = none) : decodeAt code pc = .invalidOpcode (readByte code pc) := by
  simp only [decodeAt, hpc, if_true, hr]

/-- The immediate read where the n low bytes of a Word follow an opcode byte is that Word, when it fits. -/
theorem readBE_after_opcode (op : Byte) (rest : List Byte) {n : Nat} {v : Word} (hv : v.toNat < 256 ^ n) :
    readBE (op :: beBytes n v ++ rest) 1 n = v.toNat := by
  have hbytes := readBytes_append [op] (beBytes n v) rest
  rw [length_beBytes] at hbytes
  exact (congrArg be hbytes).trans (be_beBytes_of_lt hv)

/-- What is read as an immediate fits its width (R82). -/
theorem toNat_readBE_lt (code : List Byte) (pc : Nat) {n : Nat} (hn : n ≤ 32) :
    (BitVec.ofNat 256 (readBE code pc n)).toNat < 256 ^ n := by
  have hlen := length_readBytes code pc n
  rw [readBE, toNat_word_be (hlen.trans_le hn)]
  simpa only [hlen] using be_lt (readBytes code pc n)

/-- Writing out an immediate that was read gives the bytes read. -/
theorem beBytes_readBE (code : List Byte) (pc : Nat) {n : Nat} (hn : n ≤ 32) :
    beBytes n (BitVec.ofNat 256 (readBE code pc n)) = readBytes code pc n := by
  have hlen := length_readBytes code pc n
  simpa only [hlen, readBE] using beBytes_be (hlen.trans_le hn)

/-! ### Illegal bytes (R85) -/

/-- The registered opcode bytes: eleven listed ones and the run 0x60 to 0x9F of PUSHn, DUPn and SWAPn (R84). -/
theorem registry_opcodes : registry.map (fun r => r.opcode.toNat) =
    [0x00, 0x01, 0x02, 0x03, 0x53, 0x56, 0x57, 0x58, 0x59, 0x5B, 0xF3] ++ List.range' 0x60 0x40 := rfl

/-- R85's list is the complement of the registry: a byte has no row exactly when it is listed. -/
theorem lookupOpcode_eq_none_iff (b : Byte) : lookupOpcode b = none ↔ Machine.illegalOpcode b.toNat = true := by
  have hb := b.isLt
  have hmem : lookupOpcode b = none ↔ b.toNat ∉ registry.map (fun r => r.opcode.toNat) := by
    simp only [lookupOpcode, List.find?_eq_none, beq_iff_eq, List.mem_map, not_exists, not_and, BitVec.toNat_inj]
  rw [hmem, registry_opcodes]
  simp only [List.mem_append, List.mem_cons, List.not_mem_nil, or_false, List.mem_range'_1, Machine.illegalOpcode,
    decide_eq_true_eq]
  omega

end Sys2Proof

namespace Sys2Proof.Machine

/-! ### The assembler (R88) -/

/-- Where the keys of a list are distinct, the search for a member's key finds that member. -/
theorem find?_key_of_mem {α β : Type} [BEq β] [LawfulBEq β] {f : α → β} {l : List α} (hl : (l.map f).Nodup) {a : α}
    (ha : a ∈ l) : l.find? (fun x => f x == f a) = some a := by
  induction l with
  | nil => cases ha
  | cons x xs ih =>
    rw [List.map_cons, List.nodup_cons] at hl
    obtain ⟨hx, hxs⟩ := hl
    rcases List.mem_cons.1 ha with rfl | hmem
    · exact List.find?_cons_of_pos (beq_self_eq_true _)
    · have hne : f x ≠ f a := fun e => hx (e ▸ List.mem_map_of_mem hmem)
      rw [List.find?_cons_of_neg (by simpa using hne), ih hxs hmem]

/-- A registry row is found by its own mnemonic. -/
theorem lookupMnemonic_row {r : OpRow} (hr : r ∈ registry) : lookupMnemonic r.mnemonic.toList = some r := by
  have hkeys : (registry.map (String.toList ∘ OpRow.mnemonic)).Nodup := by
    rw [← List.map_map]
    exact List.Nodup.map (fun _ _ => String.toList_inj.1) registry_mnemonics_nodup
  exact find?_key_of_mem hkeys hr

theorem assembleItem_plain {r : OpRow} (hr : r ∈ registry) (hw : r.width = 0) (labels : List (List Char × Nat))
    (imm : Option AsmImm) : assembleItem labels (.instr r.mnemonic.toList imm) = .ok (r.make 0).encode := by
  simp only [assembleItem, lookupMnemonic_row hr, hw, if_true]

theorem assembleItem_number {r : OpRow} (hr : r ∈ registry) (hw : r.width ≠ 0) (labels : List (List Char × Nat)) (v : Nat) :
    assembleItem labels (.instr r.mnemonic.toList (some (.number v))) =
      if v < 256 ^ r.width then .ok (r.make (BitVec.ofNat 256 v)).encode else .error .immediateTooLarge := by
  simp only [assembleItem, lookupMnemonic_row hr, hw, if_false, immValue]

/-- The item that writes a well-formed instruction assembles to its encoding. -/
theorem assembleItem_asmItemOf {i : Instr} (h : i.wellFormed = true) (labels : List (List Char × Nat)) :
    assembleItem labels (asmItemOf i) = .ok i.encode := by
  obtain ⟨r, v, hr, hv, rfl⟩ := wellFormed_row h
  have hf := rowFact r hr
  by_cases hw : r.width = 0
  · simp only [asmItemOf, hf.plain hw, hf.name, assembleItem_plain hr hw, hf.encode_make, hw, beBytes_zero]
  · simp only [asmItemOf, hf.wide hw, hf.name, assembleItem_number hr hw, hv, if_true, BitVec.ofNat_toNat, BitVec.setWidth_eq]

theorem assembleItems_asmItemOf {is : List Instr} (h : ∀ i ∈ is, i.wellFormed = true) (labels : List (List Char × Nat)) :
    assembleItems labels (is.map asmItemOf) = .ok (is.map Instr.encode).flatten := by
  induction is with
  | nil => rfl
  | cons i is ih =>
    obtain ⟨hi, his⟩ := List.forall_mem_cons.1 h
    simp only [List.map_cons, List.flatten_cons, assembleItems, assembleItem_asmItemOf hi, ih his]

/-- The items of instructions define no label. -/
theorem labelOffsets_asmItemOf (off : Nat) (is : List Instr) : labelOffsets off (is.map asmItemOf) = [] := by
  induction is generalizing off with
  | nil => rfl
  | cons i is ih => cases himm : i.immediate <;> simp only [List.map_cons, asmItemOf, himm, labelOffsets, ih]

/-- A program without labels is assembled item by item. -/
theorem assemble_of_no_labels {is : List AsmItem} (h : labelOffsets 0 is = []) : assemble is = assembleItems [] is := by
  simp only [assemble, h, List.map_nil, List.nodup_nil, if_true]

/-! ### The obligations -/

/-- Settles O1: the instruction is a row with an immediate that fits, and the decoder finds the row by its opcode byte and reads the
immediate back. -/
theorem encodeThenDecode : Obligations.EncodeThenDecode := by
  intro i rest h
  obtain ⟨r, v, hr, hv, rfl⟩ := wellFormed_row h
  rw [(rowFact r hr).encode_make]
  have hd : decode (r.opcode :: beBytes r.width v ++ rest) = _ := decodeAt_row (Nat.succ_pos _) (lookup_row r hr)
  rw [hd, readBE_after_opcode r.opcode rest hv, BitVec.ofNat_toNat, BitVec.setWidth_eq]

/-- Settles O2: the row behind a decoded instruction has the opcode byte read, and its immediate is written back as the bytes it was
read from. -/
theorem decodeThenEncode : Obligations.DecodeThenEncode := by
  intro code pc i h
  obtain ⟨r, hf, hop, hpc, rfl⟩ := decode_row h
  refine ⟨hf.wellFormed_make (toNat_readBE_lt code (pc + 1) hf.width_le), hpc, ?_⟩
  rw [hf.encode_make, hf.length, hop, beBytes_readBE code (pc + 1) hf.width_le, Nat.add_comm 1, readBytes_succ]

/-- Settles O4: a listed byte has no row, so the step takes the fault; every other byte has one, which the decoder uses. -/
theorem illegalBytesRaiseInvalidOpcode : Obligations.IllegalBytesRaiseInvalidOpcode := by
  refine ⟨rfl, fun s hrun hpc => ⟨fun hill => ?_, fun hleg => ?_⟩⟩
  · have hnone := (lookupOpcode_eq_none_iff _).2 hill
    exact ⟨_, step_invalid hrun (decodeAt_unregistered hpc hnone), rfl, rfl, rfl, rfl, rfl, rfl, rfl, rfl, rfl⟩
  · have hsome : lookupOpcode (readByte s.code s.pc) ≠ none := mt (lookupOpcode_eq_none_iff _).1 (by simp [hleg])
    obtain ⟨r, hr⟩ := Option.ne_none_iff_exists'.1 hsome
    exact ⟨_, decodeAt_row hpc hr⟩

/-- Settles O6, item by item; the immediate that is too large is refused by the test of its row's width. -/
theorem assemblerWritesEncodings : Obligations.AssemblerWritesEncodings := by
  refine ⟨fun is h => ?_, fun r hr hw v hv => ?_⟩
  · rw [assemble_of_no_labels (labelOffsets_asmItemOf 0 is), assembleItems_asmItemOf h]
  · rw [assemble_of_no_labels rfl]
    simp only [assembleItems, assembleItem_number hr hw, Nat.not_lt.2 hv, if_false]

/-- Settles O3, by evaluation of the registry and of the decoder on the written words. -/
theorem opcodeWordsDecode : Obligations.OpcodeWordsDecode :=
  ⟨rfl, registry_opcodes_nodup, registry_mnemonics_nodup, by decide⟩

end Sys2Proof.Machine
end

section
/-! PROOFS. The statements about the word ALU and the arithmetic instructions (spec/40_word_alu.md): the ring laws, and what ADD, MUL
and SUB do to a state. -/

namespace Sys2Proof.Machine

/-! ### The ALU on integers (R100) -/

theorem toNat_alu_add (a b : Word) : (alu .add a b).toNat = (a.toNat + b.toNat) % 2 ^ 256 := by
  rw [alu_add, BitVec.toNat_add]

theorem toNat_alu_mul (a b : Word) : (alu .mul a b).toNat = a.toNat * b.toNat % 2 ^ 256 := by
  rw [alu_mul, BitVec.toNat_mul]

/-- The difference is taken on integers, so a smaller minuend wraps (R102). -/
theorem toNat_alu_sub (a b : Word) : ((alu .sub a b).toNat : Int) = ((a.toNat : Int) - (b.toNat : Int)) % 2 ^ 256 := by
  have hnonneg : 0 ≤ ((a.toNat : Int) - (b.toNat : Int)) % 2 ^ 256 := Int.emod_nonneg _ (by decide)
  rw [alu, BitVec.toNat_ofInt]
  exact Int.toNat_of_nonneg hnonneg

/-! ### ADD, MUL and SUB on a state (R105 to R107) -/

/-- An instruction whose body completes from the state with pc moved past it answers the body's state (R28). -/
theorem exec_body_ok {i : Instr} {s t : State} (h : (shapeOf i).body s.pc (s.advance i.length) = .ok t) :
    exec i s = .next t := by
  rcases exec_cases i s with ⟨_, hb, e⟩ | ⟨_, hb, _⟩ <;> cases hb.symm.trans h
  exact e

/-- The push after two pops has room on every stack of the invariant. -/
theorem aluBody_cons (op : AluOp) {s : State} {a b : Word} {S : List Word} (hs : s.stack = a :: b :: S)
    (hl : s.stack.length ≤ 1024) : aluBody op s = .ok (s.withStack (alu op a b :: S)) := by
  rcases aluBody_cases op s with ⟨_, _, _, hs1, _, e⟩ | ⟨_, _, _, hs1, hfull, _⟩ | ⟨hshort, _⟩
  · cases hs.symm.trans hs1
    exact e
  · rw [hs1] at hl
    simp only [List.length_cons] at hl
    omega
  · simp [hs] at hshort

theorem aluBody_short (op : AluOp) {s : State} (h : s.stack.length < 2) : aluBody op s = .error .stackUnderflow := by
  simp only [aluBody, popTwo_short h]

section
variable {i : Instr} {op : AluOp} {s : State} (hi : shapeOf i = .alu op)
include hi

/-- The two top Words are replaced by the ALU's result, pc moves by one, and nothing else changes. -/
theorem exec_alu_cons {a b : Word} {S : List Word} (hs : s.stack = a :: b :: S) (hl : s.stack.length ≤ 1024) :
    exec i s = .next { s with stack := alu op a b :: S, pc := s.pc + 1 } := by
  apply exec_body_ok
  rw [length_eq_shape_length, hi]
  exact aluBody_cons op (s := s.advance 1) hs hl

theorem exec_alu_short (h : s.stack.length < 2) : ∃ t, exec i s = .next t ∧ s.FaultedFrom t .stackUnderflow s.pc := by
  apply exec_body_error
  rw [length_eq_shape_length, hi]
  exact aluBody_short op (s := s.advance 1) h

end

/-! ### The obligations -/

/-- Settles O18: the ALU's operations are those of the ring of Words; `M * M = 1` because M is -1 there. -/
theorem aluRingLaws : Obligations.AluRingLaws := by
  intro a b c
  simp only [alu_add, alu_mul, alu_sub]
  exact ⟨BitVec.add_comm a b, BitVec.add_assoc a b c, BitVec.mul_comm a b, BitVec.mul_assoc a b c, BitVec.mul_add,
    BitVec.add_zero a, BitVec.mul_one a, by rw [zero_sub, BitVec.sub_eq_add_neg], BitVec.sub_self a,
    BitVec.sub_add_cancel a b, by decide⟩

/-- Settles O19: each of the three is its ALU operation on the two top Words. -/
theorem arithmeticInstructions : Obligations.ArithmeticInstructions := by
  refine ⟨rfl, rfl, rfl, fun s => ⟨fun a b S hs hl => ?_, ?_⟩⟩
  · exact ⟨alu .add a b, alu .mul a b, alu .sub a b,
      exec_alu_cons rfl hs hl, toNat_alu_add a b,
      exec_alu_cons rfl hs hl, toNat_alu_mul a b,
      exec_alu_cons rfl hs hl, toNat_alu_sub a b⟩
  · rintro hshort i (rfl | rfl | rfl)
    all_goals exact exec_alu_short rfl hshort

end Sys2Proof.Machine
end

section
/-! PROOFS. The statements about the stack controller and the stack instructions (spec/41_stack.md): the commands of STK, the LIFO
law, and what PUSHn, DUPn and SWAPn do to a state. -/

namespace Sys2Proof.Machine

/-! ### The responses of STK (R41, R44) -/

theorem stkUnit_push_ok {w : Word} {S : List Word} (h : S.length < 1024) : stkUnit (.push w) S = (.ok, w :: S) := by
  simp only [stkUnit, stkPush_ok (Nat.ne_of_lt h)]

theorem stkUnit_push_full {w : Word} {S : List Word} (h : S.length = 1024) :
    stkUnit (.push w) S = (.err .stackOverflow, S) := by simp only [stkUnit, stkPush_full h]

theorem stkUnit_pop_cons (w : Word) (S : List Word) : stkUnit .pop (w :: S) = (.okWord w, S) := rfl

theorem stkUnit_pop_nil : stkUnit .pop [] = (.err .stackUnderflow, []) := rfl

theorem stkUnit_peek_ok {n : Nat} {S : List Word} {w : Word} (h : S[n]? = some w) : stkUnit (.peek n) S = (.okWord w, S) := by
  simp only [stkUnit, stkPeek_ok h]

theorem stkUnit_peek_short {n : Nat} {S : List Word} (h : S.length ≤ n) :
    stkUnit (.peek n) S = (.err .stackUnderflow, S) := by simp only [stkUnit, stkPeek_short h]

theorem stkUnit_swap_zero (S : List Word) : stkUnit (.swap 0) S = (.err .invalidStackIndex, S) := rfl

theorem stkUnit_swap_ok {n : Nat} {S : List Word} {a b : Word} (hn : n ≠ 0) (h0 : S[0]? = some a) (h : S[n]? = some b) :
    stkUnit (.swap n) S = (.ok, swapped n S a b) := by simp only [stkUnit, stkSwap_ok hn h0 h]

theorem stkUnit_swap_short {n : Nat} {S : List Word} (hn : n ≠ 0) (h : S.length ≤ n) :
    stkUnit (.swap n) S = (.err .stackUnderflow, S) := by simp only [stkUnit, stkSwap_short hn h]

/-! ### Runs of pushes and of pops (R124) -/

/-- Pushes within the depth all succeed; the Word pushed last is on top. -/
theorem stkRun_pushes {ws S : List Word} (h : S.length + ws.length ≤ 1024) :
    stkRun (ws.map .push) S = (List.replicate ws.length .ok, ws.reverse ++ S) := by
  induction ws generalizing S with
  | nil => rfl
  | cons w ws ih =>
    rw [List.length_cons] at h
    have hpush : stkUnit (.push w) S = (.ok, w :: S) := stkUnit_push_ok (by omega)
    have hrest := ih (S := w :: S) (by rw [List.length_cons]; omega)
    simp only [List.map_cons, stkRun, hpush, hrest, List.length_cons, List.replicate_succ, List.reverse_cons, List.append_assoc,
      List.singleton_append]

/-- Pops return the Words from the top down. -/
theorem stkRun_pops (ws S : List Word) : stkRun (List.replicate ws.length .pop) (ws ++ S) = (ws.map .okWord, S) := by
  induction ws with
  | nil => rfl
  | cons w ws ih =>
    simp only [List.length_cons, List.replicate_succ, List.cons_append, stkRun, stkUnit_pop_cons, ih, List.map_cons]

/-! ### An instruction by its shape -/

theorem exec_shape_ok {i : Instr} {h : Shape} {s t : State} (hi : shapeOf i = h)
    (hb : h.body s.pc (s.advance h.length) = .ok t) : exec i s = .next t := by
  subst hi
  exact exec_body_ok (length_eq_shape_length i ▸ hb)

theorem exec_shape_error {i : Instr} {h : Shape} {s : State} {k : FaultKind} (hi : shapeOf i = h)
    (hb : h.body s.pc (s.advance h.length) = .error k) : ∃ t, exec i s = .next t ∧ s.FaultedFrom t k s.pc := by
  subst hi
  exact exec_body_error (length_eq_shape_length i ▸ hb)

/-! ### PUSHn (R125) -/

section
variable {i : Instr} {n : Nat} {imm : Word} {s : State} (hi : i.immediate = some (n, imm))
include hi

theorem exec_push_ok (h : s.stack.length < 1024) :
    exec i s = .next { s with stack := imm :: s.stack, pc := s.pc + 1 + n } := by
  obtain ⟨hshape, -, -⟩ := shapeOf_immediate hi
  rw [Nat.add_assoc]
  exact exec_shape_ok hshape (push_ok (s := s.advance (1 + n)) (Nat.ne_of_lt h))

theorem exec_push_full (h : s.stack.length = 1024) : ∃ t, exec i s = .next t ∧ s.FaultedFrom t .stackOverflow s.pc := by
  obtain ⟨hshape, -, -⟩ := shapeOf_immediate hi
  exact exec_shape_error hshape (push_full (s := s.advance (1 + n)) h)

end

/-- A byte 0x5F + n, n from 1 to 32, has a row in the registry, n immediate bytes wide (R83, R84). -/
theorem lookupOpcode_push {op : Byte} {n : Nat} (h1 : 1 ≤ n) (hn : n ≤ 32) (hop : op.toNat = 0x5F + n) :
    ∃ r, lookupOpcode op = some r ∧ RowFact r ∧ r.width = n := by
  have hlegal : ¬ illegalOpcode op.toNat = true := by
    simp only [illegalOpcode, decide_eq_true_eq]
    omega
  obtain ⟨r, hr⟩ := Option.ne_none_iff_exists'.1 (mt (lookupOpcode_eq_none_iff op).1 hlegal)
  obtain ⟨hf, hrop⟩ := lookup_fact hr
  have hwidth : immWidth op = n := by
    rw [immWidth, if_pos (by omega)]
    omega
  exact ⟨r, hr, hf, by rw [← hf.width_scan, hrop, hwidth]⟩

/-! ### DUPn (R158) -/

/-- The opcode byte of DUPn (R158). -/
theorem encode_of_dupNumber {i : Instr} {n : Nat} (h : i.dupNumber = some n) : i.encode = [BitVec.ofNat 8 (0x7F + n)] := by
  cases i <;> cases h <;> rfl

theorem dupBody_ok {n : Nat} {s : State} {v : Word} (hv : s.stack[n - 1]? = some v) (h : s.stack.length < 1024) :
    dupBody n s = .ok (s.withStack (v :: s.stack)) := by
  simp only [dupBody, State.peek, stkPeek_ok hv, push_ok (Nat.ne_of_lt h)]

theorem dupBody_short {n : Nat} {s : State} (h : s.stack.length < n) : dupBody n s = .error .stackUnderflow := by
  simp only [dupBody, State.peek, stkPeek_short (Nat.le_sub_one_of_lt h)]

theorem dupBody_full {n : Nat} {s : State} {v : Word} (hv : s.stack[n - 1]? = some v) (h : s.stack.length = 1024) :
    dupBody n s = .error .stackOverflow := by
  simp only [dupBody, State.peek, stkPeek_ok hv, push_full h]

/-! ### SWAPn (R175) -/

/-- The opcode byte of SWAPn (R175). -/
theorem encode_of_swapNumber {i : Instr} {n : Nat} (h : i.swapNumber = some n) : i.encode = [BitVec.ofNat 8 (0x8F + n)] := by
  cases i <;> cases h <;> rfl

section
variable {i : Instr} {n : Nat} {s : State} (hi : i.swapNumber = some n)
include hi

theorem exec_swap_ok {a b : Word} (h0 : s.stack[0]? = some a) (h : s.stack[n]? = some b) :
    exec i s = .next { s with stack := swapped n s.stack a b, pc := s.pc + 1 } := by
  obtain ⟨hshape, h1, -⟩ := shapeOf_swapNumber hi
  refine exec_shape_ok hshape (?_ : (s.advance 1).swap n = _)
  simp only [State.swap, State.advance_stack, stkSwap_ok (Nat.ne_of_gt h1) h0 h]
  rfl

theorem exec_swap_short (h : s.stack.length ≤ n) : ∃ t, exec i s = .next t ∧ s.FaultedFrom t .stackUnderflow s.pc := by
  obtain ⟨hshape, h1, -⟩ := shapeOf_swapNumber hi
  refine exec_shape_error hshape (?_ : (s.advance 1).swap n = _)
  simp only [State.swap, State.advance_stack, stkSwap_short (Nat.ne_of_gt h1) h]

end

/-! ### The obligations -/

/-- Settles O20, command by command. -/
theorem stackControllerCommands : Obligations.StackControllerCommands := by
  intro S
  refine ⟨fun w => stkUnit_push_full, fun w h => ⟨w :: S, stkUnit_push_ok h, rfl, fun _ => rfl⟩, ?_, ?_,
    fun n => stkUnit_peek_short, fun n h => ?_, stkUnit_swap_zero S, fun n => stkUnit_swap_short, fun n hn h => ?_⟩
  · rintro rfl
    exact stkUnit_pop_nil
  · intro hne
    obtain ⟨w, S1, rfl⟩ := List.exists_cons_of_ne_nil hne
    exact ⟨w, S1, stkUnit_pop_cons w S1, rfl, fun _ => rfl⟩
  · have hget : S[n]? = some S[n] := List.getElem?_eq_getElem h
    exact ⟨S[n], stkUnit_peek_ok hget, hget⟩
  · have h0 : S[0]? = some S[0] := List.getElem?_eq_getElem (by omega)
    have hget : S[n]? = some S[n] := List.getElem?_eq_getElem h
    exact ⟨_, stkUnit_swap_ok hn h0 hget, swapped_length n S _ _, (swapped_top hn h0).trans hget.symm,
      (swapped_partner hget).trans h0.symm, fun j => swapped_other S _ _⟩

/-- Settles O22: the pushes leave the Words reversed on the stack, and the pops take them off in that order. -/
theorem pushesThenPopsAreLifo : Obligations.PushesThenPopsAreLifo := by
  intro ws S h
  have hpops := stkRun_pops ws.reverse S
  rw [List.length_reverse] at hpops
  rw [stkRun_append, stkRun_pushes h, hpops]

/-- Settles O23, on the two sides of the depth. -/
theorem pushInstructions : Obligations.PushInstructions := fun _ _ _ _ hi => ⟨exec_push_ok hi, exec_push_full hi⟩

/-- Settles O24: the row of the byte is n bytes wide, so the decoder reads n bytes, whose digits are the code bytes. -/
theorem pushReadsItsImmediateFromCode : Obligations.PushReadsItsImmediateFromCode := by
  intro s n h1 hn hpc hop
  obtain ⟨r, hr, hf, rfl⟩ := lookupOpcode_push h1 hn hop
  have himm := hf.wide (Nat.ne_of_gt h1) (BitVec.ofNat 256 (readBE s.code (s.pc + 1) r.width))
  refine ⟨_, _, decodeAt_row hpc hr, himm, toNat_readBE_lt s.code (s.pc + 1) hn, fun j hj => ?_, rfl, exec_push_ok himm,
    exec_push_full himm⟩
  rw [BitVec.toNat_ofNat, Nat.mod_eq_of_lt (readBE_lt hn)]
  exact readBE_digit s.code (s.pc + 1) r.width j hj

/-- Settles O25: the n-th Word is peeked, then pushed; n is at most 16, so a full stack has one to peek. -/
theorem dupInstructions : Obligations.DupInstructions := by
  intro i n s hi
  obtain ⟨hshape, h1, h16⟩ := shapeOf_dupNumber hi
  have hget (hle : n ≤ s.stack.length) : s.stack[n - 1]? = some s.stack[n - 1] := List.getElem?_eq_getElem (by omega)
  refine ⟨h1, h16, encode_of_dupNumber hi, fun hle hlt => ?_, fun hshort => ?_, fun hfull => ?_⟩
  · exact ⟨_, hget hle, exec_shape_ok hshape (dupBody_ok (s := s.advance 1) (hget hle) hlt)⟩
  · exact exec_shape_error hshape (dupBody_short (s := s.advance 1) hshort)
  · have hle : n ≤ s.stack.length := by omega
    exact exec_shape_error hshape (dupBody_full (s := s.advance 1) (hget hle) hfull)

/-- Settles O26: the second exchange is that of the same two Words, the other way round. -/
theorem swapInstructions : Obligations.SwapInstructions := by
  intro i n s hi
  obtain ⟨-, h1, h16⟩ := shapeOf_swapNumber hi
  have hn : n ≠ 0 := Nat.ne_of_gt h1
  refine ⟨h1, h16, encode_of_swapNumber hi, fun hlt => ?_, exec_swap_short hi⟩
  have h0 : s.stack[0]? = some s.stack[0] := List.getElem?_eq_getElem (by omega)
  have hget : s.stack[n]? = some s.stack[n] := List.getElem?_eq_getElem hlt
  have hback := exec_swap_ok hi (s := { s with stack := swapped n s.stack s.stack[0] s.stack[n], pc := s.pc + 1 })
    (swapped_top hn h0) (swapped_partner hget)
  rw [swapped_swapped hn h0 hget] at hback
  exact ⟨_, exec_swap_ok hi h0 hget, swapped_length n s.stack _ _, (swapped_top hn h0).trans hget.symm,
    (swapped_partner hget).trans h0.symm, fun j => swapped_other s.stack _ _, hback⟩

end Sys2Proof.Machine
end

section
/-! PROOFS. The statements about the memory instructions (spec/42_memory_ops.md): what MSTORE8 and MSIZE do to a state, and which
instructions touch memory. -/

namespace Sys2Proof.Machine

/-! ### MSTORE8 (R220) -/

theorem mstore8Body_ok {s : State} {off val : Word} {S : List Word} {m : Memory} (hs : s.stack = off :: val :: S)
    (h : s.mem.store8 s.memCapacity off.toNat (val.toNat % 256) = .ok m) :
    mstore8Body s = .ok ((s.withStack S).withMem m) := by
  simp only [mstore8Body, popTwo_cons hs, State.memStore8, State.withStack_mem, State.withStack_memCapacity, h]

theorem mstore8Body_error {s : State} {off val : Word} {S : List Word} {k : FaultKind} (hs : s.stack = off :: val :: S)
    (h : s.mem.store8 s.memCapacity off.toNat (val.toNat % 256) = .error k) : mstore8Body s = .error k := by
  simp only [mstore8Body, popTwo_cons hs, State.memStore8, State.withStack_mem, State.withStack_memCapacity, h]

theorem mstore8Body_short {s : State} (h : s.stack.length < 2) : mstore8Body s = .error .stackUnderflow := by
  simp only [mstore8Body, popTwo_short h]

theorem low8_le (val : Word) : val.toNat % 256 ≤ 255 := by omega

section
variable {s : State} {off val : Word} {S : List Word} (hs : s.stack = off :: val :: S)
include hs

/-- A Word is below 2^256, so whether the offset fits is a question of the capacity alone, at 2^256 - 1 too (log entry 19). -/
theorem exec_mstore8_ok (hw : s.mem.wf) (hcap : newLen s.mem.len off.toNat ≤ s.memCapacity) :
    ∃ m, exec .mstore8 s = .next { s with stack := S, mem := m, pc := s.pc + 1 } ∧ m.wf ∧
      m.len = newLen s.mem.len off.toNat ∧ (m.load8 off.toNat).toNat = val.toNat % 256 ∧
      ∀ a, a ≠ off.toNat → m.load8 a = s.mem.load8 a := by
  have hfits : fits s.memCapacity s.mem.len off.toNat := ⟨off.isLt, hcap⟩
  obtain ⟨_, m, e, hw1, hlen, hread, hother⟩ :=
    (store8_cases hw (low8_le val)).resolve_right fun hfull => hfull.1 hfits
  refine ⟨m, exec_shape_ok (h := .mstore8) rfl (mstore8Body_ok (s := s.advance 1) hs e), hw1, hlen, ?_, hother⟩
  rw [hread, BitVec.toNat_ofNat, Nat.mod_mod]

theorem exec_mstore8_full (hcap : s.memCapacity < newLen s.mem.len off.toNat) :
    ∃ t, exec .mstore8 s = .next t ∧ s.FaultedFrom t .memoryLimit s.pc := by
  have hfull := store8_full (low8_le val) (not_fits_over hcap)
  exact exec_shape_error (h := .mstore8) rfl (mstore8Body_error (s := s.advance 1) hs hfull)

end

/-- The new length for the byte at 2^256 - 1. -/
theorem newLen_lastOffset (len : Nat) : newLen len (2 ^ 256 - 1) = max (len / 32) (2 ^ 256 / 32) * 32 := by
  rw [newLen_byte, show (2 ^ 256 - 1 + 32) / 32 = 2 ^ 256 / 32 by norm_num]

/-! ### Pushing a number (MSIZE and PC, R221, R232) -/

/-- With room on the stack a number is pushed, as itself where R8 gives zext_256 a value. -/
theorem pushNat_ok (v : Nat) {s : State} (h : s.stack.length < 1024) :
    ∃ (w : Word) (d : Nat), pushNat v s = .ok { s with stack := w :: s.stack, freeDraws := d } ∧
      (v < 2 ^ 256 → w.toNat = v ∧ d = s.freeDraws) := by
  rcases pushNat_cases v s with ⟨_, w, d, e, hval⟩ | ⟨hfull, _⟩
  · refine ⟨w, d, e, fun hv => ?_⟩
    obtain ⟨rfl, hd⟩ := hval hv
    exact ⟨by rw [BitVec.toNat_ofNat, Nat.mod_eq_of_lt hv], hd⟩
  · exact absurd hfull (Nat.ne_of_lt h)

theorem pushNat_full (v : Nat) {s : State} (h : s.stack.length = 1024) : pushNat v s = .error .stackOverflow := by
  rcases pushNat_cases v s with ⟨hroom, _⟩ | ⟨_, e⟩
  · exact absurd h hroom
  · exact e

/-! ### RETURN's memory (R222, R236) -/

/-- MemLoadRange may grow memory, but changes no byte of it (R57, R60). -/
theorem loadRange_reads {cap off n : Nat} {m m1 : Memory} {r : List Byte} (hm : m.len % 32 = 0)
    (h : m.loadRange cap off n = .ok (r, m1)) (a : Nat) : m1.load8 a = m.load8 a := by
  obtain ⟨-, ⟨-, rfl⟩ | ⟨-, hg⟩⟩ := loadRange_ok h
  · rfl
  · obtain ⟨-, -, hgrew⟩ := grow_ok hg
    exact (hgrew hm).reads a

/-- A RETURN that completes leaves the memory MemLoadRange answers. -/
theorem exec_ret_mem {s t : State} (h : exec .ret s = .next t) (ht : t.NotFaulted) :
    ∃ off n r, s.mem.loadRange s.memCapacity off n = .ok (r, t.mem) := by
  rcases exec_cases .ret s with ⟨u, hb, e⟩ | ⟨k, _, e⟩ <;> cases e.symm.trans h
  · rcases returnBody_cases (s.advance 1) with ⟨off, len, S, r, m, _, hload, e⟩ | ⟨_, _, _, _, _, _, e⟩ | ⟨_, e⟩ <;>
      cases e.symm.trans hb
    exact ⟨_, _, r, hload⟩
  · exact absurd rfl ht

/-! ### The obligations -/

/-- Settles O31: an offset within the capacity fits, whichever Word it is. -/
theorem mstore8Instruction : Obligations.Mstore8Instruction := by
  refine ⟨rfl, fun s hw => ⟨fun off val S hs => ?_, fun hshort => ?_⟩⟩
  · rw [← newLen_byte]
    exact ⟨fun _ => exec_mstore8_ok hs hw, exec_mstore8_full hs⟩
  · exact exec_shape_error (h := .mstore8) rfl (mstore8Body_short (s := s.advance 1) hshort)

/-- Settles O32: MSIZE pushes 32 times the word count, on the two sides of the depth. -/
theorem msizeInstruction : Obligations.MsizeInstruction := by
  refine ⟨rfl, fun s => ⟨fun hroom => ?_, fun hfull => ?_⟩⟩
  · obtain ⟨w, d, e, hval⟩ := pushNat_ok (32 * s.mem.wordCount) (s := s.advance 1) hroom
    exact ⟨w, d, exec_shape_ok (h := .msize) rfl e, hval⟩
  · exact exec_shape_error (h := .msize) rfl (pushNat_full (32 * s.mem.wordCount) (s := s.advance 1) hfull)

/-- Settles O34: the frame of every other shape keeps memory, and RETURN's is what MemLoadRange answers. -/
theorem onlyMstore8AndReturnTouchMemory : Obligations.OnlyMstore8AndReturnTouchMemory := by
  intro i s t h ht
  refine ⟨fun hst hret => ?_, ?_⟩
  · exact (exec_frame h ht).mem (fun e => hst (shapeOf_inj_mstore8 e)) fun e => hret (shapeOf_inj_ret e)
  · rintro rfl ⟨-, hm⟩
    obtain ⟨off, n, r, hload⟩ := exec_ret_mem h ht
    exact loadRange_reads hm hload

/-- Settles O47: MSTORE8's completion, at the offset whose number is 2^256 - 1. -/
theorem mstore8AtTheLastOffset : Obligations.Mstore8AtTheLastOffset := by
  intro s val S hw hs hcap
  have hoff : (BitVec.allOnes 256).toNat = 2 ^ 256 - 1 := BitVec.toNat_allOnes
  have hlen : newLen s.mem.len (BitVec.allOnes 256).toNat = max (s.mem.len / 32) (2 ^ 256 / 32) * 32 := by
    rw [hoff, newLen_lastOffset]
  have hstore := exec_mstore8_ok hs hw (hlen ▸ hcap)
  rwa [hlen, hoff] at hstore

end Sys2Proof.Machine
end

section
/-! PROOFS. The statements about control transfer and halting (spec/43_control.md): the scan for jump destinations, and what PC, JUMP,
JUMPI, JUMPDEST, STOP and RETURN do to a state. -/

namespace Sys2Proof.Machine

/-! ### Jump destinations (R230, R231) -/

/-- The scan comes to every opcode offset, so it lists the one that holds 0x5B (R230). -/
theorem mem_jumpDests_of_opcodeOffset {code : List Byte} {t : Nat} (ho : OpcodeOffset code t) (hb : code[t]? = some 0x5B) :
    t ∈ jumpDests code := by
  apply opcodeOffset_scan ho t
  rw [scan_cons hb, if_pos rfl]
  exact List.mem_append_left _ (List.mem_singleton_self t)

/-- The row of 0x5B is JUMPDEST's, which has no immediate (R84). -/
theorem lookupOpcode_jumpdest : ∃ r, lookupOpcode 0x5B = some r ∧ ∀ v, r.make v = .jumpdest := ⟨_, rfl, fun _ => rfl⟩

/-- A member of JDEST is below CODE_LEN and decodes to JUMPDEST (R31, R84). -/
theorem decodeAt_jumpDest {code : List Byte} {t : Nat} (h : t ∈ jumpDests code) :
    t < code.length ∧ decodeAt code t = .instr .jumpdest := by
  obtain ⟨hlt, hb⟩ := jumpDests_lt h
  have hread : readByte code t = 0x5B := Option.some.inj ((getElem?_eq_readByte hlt).symm.trans hb)
  obtain ⟨r, hr, hmake⟩ := lookupOpcode_jumpdest
  exact ⟨hlt, by rw [decodeAt_row hlt (hread ▸ hr), hmake]⟩

/-! ### JUMP and JUMPI (R233, R234) -/

section
variable {s : State} {t c : Word} {S : List Word}

theorem jumpTo_member (h : t.toNat ∈ s.jdest) : jumpTo t s = .ok (s.setPc t.toNat) :=
  ((jumpTo_cases t s).resolve_right fun hn => hn.1 h).2

theorem jumpTo_invalid (h : t.toNat ∉ s.jdest) : jumpTo t s = .error .invalidJumpDestination :=
  ((jumpTo_cases t s).resolve_left fun hm => h hm.1).2

theorem jumpBody_cons (hs : s.stack = t :: S) : jumpBody s = jumpTo t (s.withStack S) := by
  simp only [jumpBody, pop_cons hs]

theorem jumpBody_nil (hs : s.stack = []) : jumpBody s = .error .stackUnderflow := by
  simp only [jumpBody, pop_empty hs]

/-- With a condition of 0 JUMPI only pops: the target is not looked at (R234). -/
theorem jumpiBody_notTaken (hs : s.stack = t :: 0 :: S) : jumpiBody s = .ok (s.withStack S) := by
  simp only [jumpiBody, popTwo_cons hs]
  rfl

/-- With any other condition JUMPI jumps to its target as JUMP does (R234). -/
theorem jumpiBody_taken (hs : s.stack = t :: c :: S) (hc : c ≠ 0) : jumpiBody s = jumpTo t (s.withStack S) := by
  simp only [jumpiBody, popTwo_cons hs, conditionHolds, hc, ne_eq, not_false_eq_true, decide_true, if_true]

theorem jumpiBody_short (h : s.stack.length < 2) : jumpiBody s = .error .stackUnderflow := by
  simp only [jumpiBody, popTwo_short h]

/-- A JUMPI that completes with a condition other than 0 has landed on a member of JDEST (R234). -/
theorem exec_jumpi_taken_pc {u : State} (hs : s.stack = t :: c :: S) (hc : c ≠ 0) (h : exec .jumpi s = .next u)
    (hu : u.NotFaulted) : u.pc ∈ s.jdest := by
  rcases exec_cases .jumpi s with ⟨v, hb, e⟩ | ⟨k, _, e⟩ <;> cases e.symm.trans h
  · have hjump : jumpTo t ((s.advance 1).withStack S) = .ok u :=
      (jumpiBody_taken (s := s.advance 1) hs hc).symm.trans hb
    rcases jumpTo_cases t ((s.advance 1).withStack S) with ⟨hmem, e⟩ | ⟨_, e⟩ <;> cases e.symm.trans hjump
    exact hmem
  · exact absurd rfl hu

end

/-! ### RETURN (R236) -/

theorem returnBody_short {s : State} (h : s.stack.length < 2) : returnBody s = .error .stackUnderflow := by
  simp only [returnBody, popTwo_short h]

section
variable {s : State} {off len : Word} {S : List Word} (hs : s.stack = off :: len :: S)
include hs

/-- RETURN halts with what MemLoadRange answers over its range. -/
theorem exec_ret_ok {r : List Byte} {m : Memory} (h : s.mem.loadRange s.memCapacity off.toNat len.toNat = .ok (r, m)) :
    exec .ret s = .next { s with stack := S, mem := m, ret := r, status := .haltedNormal, pc := s.pc + 1 } := by
  refine exec_shape_ok (h := .ret) rfl (?_ : returnBody (s.advance 1) = _)
  simp only [returnBody, popTwo_cons (s := s.advance 1) hs, State.setReturnData, State.withStack_mem,
    State.withStack_memCapacity, State.advance_mem, State.advance_memCapacity, h]
  rfl

/-- A range that fits is returned as it reads before growth (R57, R60). -/
theorem exec_ret_fits (hm : s.mem.wf) (hlen : len.toNat ≠ 0)
    (hfits : fits s.memCapacity s.mem.len (off.toNat + len.toNat - 1)) :
    ∃ r m, exec .ret s = .next { s with stack := S, mem := m, ret := r, status := .haltedNormal, pc := s.pc + 1 } ∧
      r.length = len.toNat ∧ (∀ j, j < len.toNat → r[j]? = some (s.mem.load8 (off.toNat + j))) ∧
      m.len = newLen s.mem.len (off.toNat + len.toNat - 1) ∧ m.wf ∧ ∀ a, m.load8 a = s.mem.load8 a := by
  obtain ⟨_, m, e, hg⟩ := (loadRange_cases hm.2 hlen).resolve_right fun hfull => hfull.1 hfits
  exact ⟨_, m, exec_ret_ok hs e, bytesAt_length _ _ _, fun _ => bytesAt_get, hg.len_eq, hg.wf hm, hg.reads⟩

/-- A range that does not fit is MemoryLimit (R54). -/
theorem exec_ret_full (hlen : len.toNat ≠ 0) (h : ¬ fits s.memCapacity s.mem.len (off.toNat + len.toNat - 1)) :
    ∃ t, exec .ret s = .next t ∧ s.FaultedFrom t .memoryLimit s.pc :=
  exec_shape_error (h := .ret) rfl (returnBody_error (s := s.advance 1) hs (loadRange_full hlen h))

end

/-! ### The obligations -/

/-- Settles O35: the scan lists what it comes to, in rising order, and comes to every opcode offset. -/
theorem jumpDestsAreOpcodeOffsets : Obligations.JumpDestsAreOpcodeOffsets := fun code =>
  ⟨jumpDests_pairwise_aux code 0 0, fun _ =>
    ⟨fun h => ⟨jumpDests_opcodeOffset h, (jumpDests_lt h).2⟩, fun ⟨ho, hb⟩ => mem_jumpDests_of_opcodeOffset ho hb⟩⟩

/-- Settles O36: PC pushes the offset it started at, on the two sides of the depth. -/
theorem pcInstruction : Obligations.PcInstruction := by
  refine ⟨rfl, fun s => ⟨fun hroom => ?_, fun hfull => ?_⟩⟩
  · obtain ⟨w, d, e, hval⟩ := pushNat_ok s.pc (s := s.advance 1) hroom
    exact ⟨w, d, exec_shape_ok (h := .pc) rfl e, hval⟩
  · exact exec_shape_error (h := .pc) rfl (pushNat_full s.pc (s := s.advance 1) hfull)

/-- Settles O37: the pop, then the jump on the two sides of JDEST. -/
theorem jumpInstruction : Obligations.JumpInstruction := by
  refine ⟨rfl, fun s => ⟨fun t S hs => ?_, fun hs => ?_⟩⟩
  · have hb : jumpBody (s.advance 1) = jumpTo t ((s.advance 1).withStack S) := jumpBody_cons hs
    exact ⟨fun hmem => exec_shape_ok (h := .jump) rfl (hb.trans (jumpTo_member hmem)),
      fun hnot => exec_shape_error (h := .jump) rfl (hb.trans (jumpTo_invalid hnot))⟩
  · exact exec_shape_error (h := .jump) rfl (jumpBody_nil (s := s.advance 1) hs)

/-- Settles O38: the two pops, then the condition, then the jump as JUMP's. -/
theorem jumpiInstruction : Obligations.JumpiInstruction := by
  refine ⟨rfl, fun s => ⟨fun t c S hs => ⟨?_, fun hc hmem => ?_, fun hc hnot => ?_⟩, fun hshort => ?_⟩⟩
  · rintro rfl
    exact exec_shape_ok (h := .jumpi) rfl (jumpiBody_notTaken (s := s.advance 1) hs)
  · exact exec_shape_ok (h := .jumpi) rfl ((jumpiBody_taken (s := s.advance 1) hs hc).trans (jumpTo_member hmem))
  · exact exec_shape_error (h := .jumpi) rfl ((jumpiBody_taken (s := s.advance 1) hs hc).trans (jumpTo_invalid hnot))
  · exact exec_shape_error (h := .jumpi) rfl (jumpiBody_short (s := s.advance 1) hshort)

/-- Settles O40: no bytes, a range that fits, one that does not, and a stack too short. -/
theorem returnInstruction : Obligations.ReturnInstruction := by
  refine ⟨rfl, fun s hm => ⟨fun off len S hs => ⟨?_, fun hlen hend hcap => ?_, fun hlen hover => ?_⟩, fun hshort => ?_⟩⟩
  · rintro rfl
    exact exec_ret_ok hs (loadRange_zero s.memCapacity off.toNat s.mem)
  · have hn : len.toNat ≠ 0 := BitVec.toNat_ne_iff_ne.2 hlen
    rw [← newLen_range s.mem.len off.toNat (Nat.pos_of_ne_zero hn)] at hcap ⊢
    exact exec_ret_fits hs hm hn ⟨by omega, hcap⟩
  · have hn : len.toNat ≠ 0 := BitVec.toNat_ne_iff_ne.2 hlen
    rw [← newLen_range s.mem.len off.toNat (Nat.pos_of_ne_zero hn)] at hover
    exact exec_ret_full hs hn (not_fits_over hover)
  · exact exec_shape_error (h := .ret) rfl (returnBody_short (s := s.advance 1) hshort)

/-- Settles O41: the target is a member of JDEST, which the invariant says is the scan of the code. -/
theorem takenJumpLandsOnJumpdest : Obligations.TakenJumpLandsOnJumpdest := by
  intro s t hi h ht
  have hland : t.pc ∈ s.jdest ∧ s.SameRun t := by
    rcases h with h | ⟨h, target, c, S, hs, hc⟩
    · exact ⟨exec_jump_pc h ht, exec_sameRun h⟩
    · exact ⟨exec_jumpi_taken_pc hs hc h ht, exec_sameRun h⟩
  obtain ⟨hmem, hcode, -⟩ := hland
  rw [hi.jdestScan, ← hcode] at hmem
  obtain ⟨hlt, hd⟩ := decodeAt_jumpDest hmem
  exact ⟨hlt, hd, exec_jumpdest t⟩

/-- Settles O39: each of the three by its meaning. -/
theorem jumpdestAndStopInstructions : Obligations.JumpdestAndStopInstructions :=
  ⟨rfl, rfl, fun s => ⟨exec_jumpdest s, exec_stop s, execSyntheticStop_eq s⟩⟩

end Sys2Proof.Machine
end

section
/-! PROOFS. The statements about the sequencer (spec/44_sequencer.md): what a step answers, where a run ends, and the trace hook. -/

namespace Sys2Proof.Machine

/-! ### The step (R252 to R256) -/

/-- Only STOP and RETURN halt a running state normally (R32). -/
theorem exec_halts_inv {i : Instr} {s u : State} (hr : s.status = .running) (h : exec i s = .next u)
    (hu : u.status = .haltedNormal) : i = .stop ∨ i = .ret := by
  have hf := exec_frame h (by simp [State.NotFaulted, hu])
  by_contra hne
  obtain ⟨hstop, hret⟩ := not_or.1 hne
  obtain ⟨hstatus, -⟩ := hf.status (fun e => hstop (shapeOf_inj_stop e)) fun e => hret (shapeOf_inj_ret e)
  rw [State.advance_status, hr, hu] at hstatus
  cases hstatus

/-- The close of a step never halts a run normally: an instruction did. -/
theorem retire_haltedNormal {u : State} (h : u.retire.status = .haltedNormal) : u.status = .haltedNormal := by
  have hn : u.retire.NotFaulted := by simp [State.NotFaulted, h]
  rwa [(retire_notFaulted hn).2] at h

/-- A fault the close of a step adds is StepBudgetExceeded; any other is the instruction's own. -/
theorem retire_faulted_inv {u : State} (h : u.retire.status = .haltedFault) (hk : u.retire.faultKind ≠ .stepBudgetExceeded) :
    u.status = .haltedFault := by
  rcases retire_cases u with ⟨hs, _⟩ | ⟨_, e⟩ | ⟨_, _, e⟩ | ⟨_, _, e⟩
  · exact hs
  · rwa [e] at h
  · rwa [e] at h
  · exact absurd (by rw [e]; rfl) hk

/-! ### The end of a run (R255, R260) -/

/-- A state still running after the close of a step is within its budget (R255). -/
theorem retire_running_steps {u : State} (h : u.retire.status = .running) : u.retire.steps ≤ u.retire.stepBudget := by
  rcases retire_cases u with ⟨hs, e⟩ | ⟨hs, e⟩ | ⟨_, hb, e⟩ | ⟨_, _, e⟩ <;> rw [e] at h ⊢
  · exact nomatch hs.symm.trans h
  · exact nomatch hs.symm.trans h
  · exact hb
  · cases h

/-- A step that leaves the run running has counted one more, within the budget (R254, R255). -/
theorem step_running {s t : State} (h : step s = .next t) (ht : t.status = .running) :
    t.steps = s.steps + 1 ∧ t.stepBudget = s.stepBudget ∧ t.steps ≤ t.stepBudget := by
  obtain ⟨-, -, -, -, -, hbudget⟩ := runConstantsNeverChange s t h
  obtain ⟨-, ⟨i, u, _, hu, rfl⟩ | ⟨_, _, rfl⟩ | ⟨_, _, _, rfl⟩⟩ := step_inv h
  · obtain ⟨hn, e⟩ := retire_notFaulted (u := u) (by simp [State.NotFaulted, ht])
    have hcount : u.retire.steps = u.steps + 1 := by rw [e, State.countStep_steps]
    exact ⟨hcount.trans (congrArg (· + 1) (exec_frame hu hn).steps), hbudget, retire_running_steps ht⟩
  · cases ht
  · cases ht

theorem run_succ {s t : State} (k : Nat) (h : step s = .next t) :
    Host.Core.run Sys2Proof.core (k + 1) s = Host.Core.run Sys2Proof.core k t := by
  have hcore : Sys2Proof.core.step s = .next t := h
  simp only [Host.Core.run, hcore]

/-- A running state within its budget ends in at most as many steps as the budget leaves it, and one more (R260). -/
theorem run_ends {n : Nat} {s : State} (hr : s.status = .running) (hn : s.stepBudget = s.steps + n) :
    ∃ (k : Nat) (t : State), 1 ≤ k ∧ k ≤ n + 1 ∧ Host.Core.run Sys2Proof.core k s = .next t ∧ t.status ≠ .running := by
  induction n generalizing s with
  | zero =>
    obtain ⟨t, ht⟩ := step_next_of_running hr
    refine ⟨1, t, Nat.le_refl 1, Nat.le_refl 1, run_succ 0 ht, fun hrun => ?_⟩
    obtain ⟨hsteps, hbudget, hle⟩ := step_running ht hrun
    omega
  | succ n ih =>
    obtain ⟨t, ht⟩ := step_next_of_running hr
    by_cases hrun : t.status = .running
    · obtain ⟨hsteps, hbudget, -⟩ := step_running ht hrun
      obtain ⟨k, u, _, hk, hu, hend⟩ := ih hrun (by omega)
      exact ⟨k + 1, u, by omega, by omega, (run_succ k ht).trans hu, hend⟩
    · exact ⟨1, t, Nat.le_refl 1, by omega, run_succ 0 ht, hrun⟩

/-- An ended run has a result for the caller (R257). -/
theorem result_of_ended {s : State} (h : s.status ≠ .running) : s.result ≠ none := by
  cases hs : s.status with
  | running => exact absurd hs h
  | haltedNormal => simp [State.result, hs]
  | haltedFault => simp [State.result, hs]

/-! ### The trace hook (R258) -/

/-- What the record r shows of an instruction that started at pc0 and left t: pc0, and t's stack (bottom first) and memory. -/
def TraceRecord.Shows (r : TraceRecord) (pc0 : Nat) (t : State) : Prop :=
  r.pcBeforeExecution = pc0 ∧ r.stackSnapshot = t.stack.reverse ∧ r.memorySnapshot.length = t.mem.len ∧
    ∀ a, a < t.mem.len → r.memorySnapshot[a]? = some (t.mem.load8 a)

theorem traceAfter_completed {t : State} (name : String) (pc0 : Nat) (h : t.NotFaulted) :
    ∃ r, traceAfter name pc0 (.next t) = some r ∧ r.opcodeName = name ∧ r.Shows pc0 t := by
  refine ⟨_, if_neg h, rfl, rfl, rfl, bytesAt_length 0 _ _, fun a ha => ?_⟩
  rw [bytesAt_get ha, Nat.zero_add]

theorem traceAfter_faulted {t : State} (name : String) (pc0 : Nat) (h : t.status = .haltedFault) :
    traceAfter name pc0 (.next t) = none := if_pos h

theorem trace_instr {s u : State} {i : Instr} (hr : s.status = .running) (hd : decodeAt s.code s.pc = .instr i)
    (h : exec i s = .next u) : s.trace = traceAfter i.mnemonic s.pc (.next u) := by
  simp only [State.trace, hr, hd, h]

theorem trace_syntheticStop {s : State} (hr : s.status = .running) (hd : decodeAt s.code s.pc = .syntheticStop) :
    s.trace = traceAfter "STOP" s.pc (.next s.stop) := by
  simp only [State.trace, hr, hd, execSyntheticStop_eq]

theorem trace_invalid {s : State} {b : Byte} (hr : s.status = .running) (hd : decodeAt s.code s.pc = .invalidOpcode b) :
    s.trace = none := by
  simp only [State.trace, hr, hd]

theorem trace_ended {s : State} (h : s.status ≠ .running) : s.trace = none := by
  cases hs : s.status with
  | running => exact absurd hs h
  | haltedNormal => simp only [State.trace, hs]
  | haltedFault => simp only [State.trace, hs]

/-- An instruction that completes gives a record, also where the step then takes StepBudgetExceeded (log entry 12). -/
theorem trace_completed {s u : State} {i : Instr} (hr : s.status = .running) (hd : decodeAt s.code s.pc = .instr i)
    (h : exec i s = .next u) (hu : u.NotFaulted) :
    ∃ r, s.trace = some r ∧ r.opcodeName = i.mnemonic ∧ r.Shows s.pc u := by
  rw [trace_instr hr hd h]
  exact traceAfter_completed i.mnemonic s.pc hu

/-- The record of a step that does not fault shows the state it reaches, which counting has not changed. -/
theorem trace_of_step {s t : State} (h : step s = .next t) (ht : t.NotFaulted) :
    ∃ r, s.trace = some r ∧ r.Shows s.pc t ∧ (∀ i, decodeAt s.code s.pc = .instr i → r.opcodeName = i.mnemonic) ∧
      (decodeAt s.code s.pc = .syntheticStop → r.opcodeName = "STOP") := by
  obtain ⟨hr, ⟨i, u, hd, hu, rfl⟩ | ⟨hd, _, rfl⟩ | ⟨_, _, _, rfl⟩⟩ := step_inv h
  · obtain ⟨hn, e⟩ := retire_notFaulted ht
    obtain ⟨r, htrace, hname, hshows⟩ := trace_completed hr hd hu hn
    rw [e]
    exact ⟨r, htrace, hshows, fun j hj => by cases hd.symm.trans hj; exact hname, fun hj => nomatch hd.symm.trans hj⟩
  · obtain ⟨r, htrace, hname, hshows⟩ := traceAfter_completed (t := s.stop) "STOP" s.pc nofun
    exact ⟨r, (trace_syntheticStop hr hd).trans htrace, hshows, fun j hj => (nomatch hd.symm.trans hj), fun _ => hname⟩
  · exact absurd rfl ht

theorem trace_of_faulting_step {s t : State} (h : step s = .next t) (ht : t.status = .haltedFault)
    (hk : t.faultKind ≠ .stepBudgetExceeded) : s.trace = none := by
  obtain ⟨hr, ⟨i, u, hd, hu, rfl⟩ | ⟨_, _, rfl⟩ | ⟨_, hd, _, _⟩⟩ := step_inv h
  · exact (trace_instr hr hd hu).trans (traceAfter_faulted i.mnemonic s.pc (retire_faulted_inv ht hk))
  · cases ht
  · exact trace_invalid hr hd

/-! ### The obligations -/

/-- Settles O9: a normal halt comes from the instruction, not from the close of the step, and only two instructions halt. -/
theorem runningExactlyWhenStepping : Obligations.RunningExactlyWhenStepping := by
  refine fun s => ⟨step_next_of_running, step_ended, fun t h ht => ?_⟩
  obtain ⟨hr, ⟨i, u, hd, hu, rfl⟩ | ⟨hd, _, _⟩ | ⟨_, _, _, rfl⟩⟩ := step_inv h
  · rcases exec_halts_inv hr hu (retire_haltedNormal ht) with rfl | rfl
    · exact .inr (.inl hd)
    · exact .inr (.inr hd)
  · exact .inl hd
  · cases ht

/-- Settles O10, by induction on what is left of the budget. -/
theorem everyRunEndsWithinBudget : Obligations.EveryRunEndsWithinBudget := by
  refine ⟨fun cap cmax budget code calldata => ?_, fun s hr hle => ?_⟩
  · obtain ⟨k, t, -, hk, hrun, hend⟩ :=
      run_ends (s := State.initial cap cmax budget code calldata) rfl (Nat.zero_add budget).symm
    exact ⟨k, t, hk, hrun, result_of_ended hend⟩
  · obtain ⟨k, t, hpos, hk, hrun, hend⟩ := run_ends hr (Nat.add_sub_cancel' hle).symm
    exact ⟨k, t, hpos, by omega, hrun, hend⟩

/-- Settles O11: the record of an instruction, of a step, and the places without one. -/
theorem traceRecordAfterCompletion : Obligations.TraceRecordAfterCompletion := by
  refine ⟨fun s u i => trace_completed, fun s t h ht => ?_, fun s t => trace_of_faulting_step, fun s => trace_ended⟩
  obtain ⟨r, htrace, ⟨hpc, hstack, hlen, hbytes⟩, hinstr, hstop⟩ := trace_of_step h ht
  exact ⟨r, htrace, hpc, hstack, hlen, hbytes, hinstr, hstop⟩

/-- Settles O7, by the four ways in which a step closes. -/
theorem stepRunsDecodedInstruction : Obligations.StepRunsDecodedInstruction := by
  intro s u i hr hd hu
  have hstep : step s = .next u.retire := step_instr hr hd hu
  refine ⟨fun h => ?_, fun h => ?_, fun h hb => ?_, fun h hb => ?_⟩
  · rw [hstep, retire_faulted h]
  · rw [hstep, retire_halted h]; rfl
  · rw [hstep, retire_running h hb]; rfl
  · exact ⟨_, hstep, by rw [retire_over h hb]; exact ⟨rfl, rfl, rfl, rfl, rfl, rfl, rfl, rfl, rfl⟩⟩

/-- Settles O8: past the end of code the decoder answers the synthetic STOP. -/
theorem syntheticStopHalts : Obligations.SyntheticStopHalts := fun _ hr hpc => step_syntheticStop hr (decode_past hpc)

end Sys2Proof.Machine
end

section
/-! PROOFS. The statements about faults (spec/60_exceptions.md): which instruction raises which fault, and the fault_pc of every
fault. -/

namespace Sys2Proof.Machine

/-! ### The instructions of a shape -/

section
variable {i : Instr}

theorem alu_of_shapeOf {op : AluOp} (h : shapeOf i = .alu op) : i = .add ∨ i = .mul ∨ i = .sub := by
  cases i <;> cases h <;> decide

theorem immediate_of_shapeOf {n : Nat} {imm : Word} (h : shapeOf i = .push n imm) : i.immediate ≠ none := by
  cases i <;> cases h <;> nofun

theorem dupNumber_of_shapeOf {n : Nat} (h : shapeOf i = .dup n) : i.dupNumber ≠ none := by
  cases i <;> cases h <;> nofun

theorem swapNumber_of_shapeOf {n : Nat} (h : shapeOf i = .swap n) : i.swapNumber ≠ none := by
  cases i <;> cases h <;> nofun

theorem shapeOf_inj_pc (h : shapeOf i = .pc) : i = .pc := by
  cases i <;> cases h; rfl

theorem shapeOf_inj_msize (h : shapeOf i = .msize) : i = .msize := by
  cases i <;> cases h; rfl

end

/-! ### The column "raised by" of R270 -/

/-- An instruction raises four of the eight faults; the others come from decode, the step budget and the unit commands. -/
theorem faults_cases {h : Shape} {k : FaultKind} (hk : k ∈ h.faults) :
    k = .stackOverflow ∨ k = .stackUnderflow ∨ k = .invalidJumpDestination ∨ k = .memoryLimit := by
  cases h <;> simp only [Shape.faults, List.mem_cons, List.not_mem_nil] at hk <;> tauto

/-- Only the shapes that push more than they pop overflow, and they do so on a full stack: after its two pops an ALU instruction has
room for its result (R120). -/
theorem body_overflow {h : Shape} {pc0 : Nat} {s : State} (hsw : ∀ n, h = .swap n → n ≠ 0) (hl : s.stack.length ≤ 1024)
    (hb : h.body pc0 s = .error .stackOverflow) :
    s.stack.length = 1024 ∧ ((∃ n imm, h = .push n imm) ∨ (∃ n, h = .dup n) ∨ h = .pc ∨ h = .msize) := by
  have hk := body_fault hsw hb
  cases h with
  | alu op =>
    rcases aluBody_cases op s with ⟨_, _, _, _, _, e⟩ | ⟨_, _, S, hs, hfull, _⟩ | ⟨_, e⟩
    · cases e.symm.trans hb
    · rw [hs, List.length_cons, List.length_cons] at hl
      omega
    · cases e.symm.trans hb
  | push n imm =>
    rcases push_cases imm s with ⟨_, e⟩ | ⟨hfull, _⟩
    · cases e.symm.trans hb
    · exact ⟨hfull, .inl ⟨n, imm, rfl⟩⟩
  | dup n =>
    rcases dupBody_cases n s with ⟨_, _, _, e⟩ | ⟨_, hfull, _⟩ | ⟨_, e⟩
    · cases e.symm.trans hb
    · exact ⟨hfull, .inr (.inl ⟨n, rfl⟩)⟩
    · cases e.symm.trans hb
  | pc =>
    rcases pushNat_cases pc0 s with ⟨_, _, _, e, _⟩ | ⟨hfull, _⟩
    · cases e.symm.trans hb
    · exact ⟨hfull, .inr (.inr (.inl rfl))⟩
  | msize =>
    rcases pushNat_cases (32 * s.mem.wordCount) s with ⟨_, _, _, e, _⟩ | ⟨hfull, _⟩
    · cases e.symm.trans hb
    · exact ⟨hfull, .inr (.inr (.inr rfl))⟩
  | stop | mstore8 | jump | jumpi | jumpdest | swap | ret => simp [Shape.faults] at hk

section
variable {i : Instr}

theorem underflow_raisedBy (hk : .stackUnderflow ∈ (shapeOf i).faults) :
    i.dupNumber ≠ none ∨ i.swapNumber ≠ none ∨ i ∈ [.add, .mul, .sub, .mstore8, .jump, .jumpi, .ret] := by
  cases hs : shapeOf i with
  | alu op => rcases alu_of_shapeOf hs with rfl | rfl | rfl <;> simp
  | dup n => exact .inl (dupNumber_of_shapeOf hs)
  | swap n => exact .inr (.inl (swapNumber_of_shapeOf hs))
  | mstore8 => simp [shapeOf_inj_mstore8 hs]
  | jump => simp [shapeOf_inj_jump hs]
  | jumpi => simp [shapeOf_inj_jumpi hs]
  | ret => simp [shapeOf_inj_ret hs]
  | stop | pc | msize | jumpdest | push => simp [hs, Shape.faults] at hk

theorem invalidJump_raisedBy (hk : .invalidJumpDestination ∈ (shapeOf i).faults) : i = .jump ∨ i = .jumpi := by
  cases hs : shapeOf i with
  | jump => exact .inl (shapeOf_inj_jump hs)
  | jumpi => exact .inr (shapeOf_inj_jumpi hs)
  | stop | alu | mstore8 | pc | msize | jumpdest | push | dup | swap | ret => simp [hs, Shape.faults] at hk

theorem memoryLimit_raisedBy (hk : .memoryLimit ∈ (shapeOf i).faults) : i = .mstore8 ∨ i = .ret := by
  cases hs : shapeOf i with
  | mstore8 => exact .inl (shapeOf_inj_mstore8 hs)
  | ret => exact .inr (shapeOf_inj_ret hs)
  | stop | alu | jump | jumpi | pc | msize | jumpdest | push | dup | swap => simp [hs, Shape.faults] at hk

end

/-! ### Where a fault comes from -/

/-- A body that completes leaves no fault behind: it keeps the status or halts normally. -/
theorem BodyFrame.notFaulted {h : Shape} {s t : State} (hf : BodyFrame h s t) (hs : s.NotFaulted) : t.NotFaulted := by
  by_cases hh : h = .stop ∨ h = .ret
  · simp [State.NotFaulted, hf.halts hh]
  · obtain ⟨hstop, hret⟩ := not_or.1 hh
    rwa [State.NotFaulted, (hf.status hstop hret).1]

/-- The fault an instruction ends in is one its body raised, taken at pc0 (R272, R273). -/
theorem exec_faulted_inv {i : Instr} {s t : State} (hs : s.NotFaulted) (h : exec i s = .next t)
    (ht : t.status = .haltedFault) :
    ∃ k, (shapeOf i).body s.pc (s.advance i.length) = .error k ∧ k ∈ (shapeOf i).faults ∧
      t = (s.advance i.length).raiseFault k s.pc := by
  rcases exec_cases i s with ⟨u, hb, e⟩ | ⟨k, hb, e⟩ <;> cases e.symm.trans h
  · exact absurd ht ((body_frame (shapeOf_swap_ne i) hb).notFaulted hs)
  · exact ⟨k, hb, body_fault (shapeOf_swap_ne i) hb, rfl⟩

/-- A step that closes in a fault has it from its instruction, or from the budget after an instruction that left the run running. -/
theorem retire_faulted_cases {u : State} (h : u.retire.status = .haltedFault) :
    (u.status = .haltedFault ∧ u.retire = u) ∨
      (u.status = .running ∧ u.retire = u.countStep.raiseFault .stepBudgetExceeded u.pc) := by
  rcases retire_cases u with hfault | ⟨hs, e⟩ | ⟨hs, _, e⟩ | ⟨hs, _, e⟩
  · exact .inl hfault
  · rw [e, State.countStep_status, hs] at h; cases h
  · rw [e, State.countStep_status, hs] at h; cases h
  · exact .inr ⟨hs, e⟩

/-! ### The obligations -/

/-- Settles O44: the four faults of an instruction, each with the shapes whose body raises it. -/
theorem instructionFaultTable : Obligations.InstructionFaultTable := by
  intro i s t hs hl h ht
  obtain ⟨k, hb, hk, rfl⟩ := exec_faulted_inv hs h ht
  refine ⟨rfl, exec_sameRun h, ?_⟩
  rcases faults_cases hk with rfl | rfl | rfl | rfl
  · obtain ⟨hfull, hshape⟩ := body_overflow (s := s.advance i.length) (shapeOf_swap_ne i) hl hb
    refine .inl ⟨rfl, hfull, ?_⟩
    rcases hshape with ⟨n, imm, hi⟩ | ⟨n, hi⟩ | hi | hi
    · exact .inl (immediate_of_shapeOf hi)
    · exact .inr (.inl (dupNumber_of_shapeOf hi))
    · exact .inr (.inr (.inl (shapeOf_inj_pc hi)))
    · exact .inr (.inr (.inr (shapeOf_inj_msize hi)))
  · exact .inr (.inl ⟨rfl, underflow_raisedBy hk⟩)
  · exact .inr (.inr (.inl ⟨rfl, invalidJump_raisedBy hk⟩))
  · exact .inr (.inr (.inr ⟨rfl, memoryLimit_raisedBy hk⟩))

/-- Settles O45: a fault of the instruction, of the budget, and of decode. -/
theorem faultPcOfEveryFault : Obligations.FaultPcOfEveryFault := by
  intro s t h ht
  obtain ⟨hr, ⟨i, u, hd, hu, rfl⟩ | ⟨_, _, rfl⟩ | ⟨_, _, _, rfl⟩⟩ := step_inv h
  · rcases retire_faulted_cases ht with ⟨hs, e⟩ | ⟨hs, e⟩ <;> rw [e]
    · obtain ⟨k, -, hk, rfl⟩ := exec_faulted_inv (by simp [State.NotFaulted, hr]) hu hs
      refine ⟨fun _ => rfl, ?_⟩
      rcases faults_cases hk with rfl | rfl | rfl | rfl <;> exact ⟨nofun, nofun, nofun⟩
    · exact ⟨absurd rfl, fun _ => ⟨i, u, hd, hu, hs, rfl⟩, nofun, nofun⟩
  · cases ht
  · exact ⟨fun _ => rfl, nofun, nofun, nofun⟩

end Sys2Proof.Machine
end
